-- ==== Sys2Proof/Word.lean ====
section
/-! DEFINITION. The widths of the values the core holds (spec/00_scope.md R9, R11, R13): every value is an unsigned bit vector. -/

namespace Sys2Proof

/-- The contents of a general register or of a memory byte (R9 `RW`). -/
abbrev Byte := BitVec 8

/-- An instruction word, a call-stack entry or the program counter (R9 `IW`, `SW`, `PCW`). -/
abbrev Word := BitVec 16

/-- An address operand `nnn` (R9 `AW`). -/
abbrev Addr := BitVec 12

/-- A register number, as a 4-bit field `x` or `y` holds it (R72). -/
abbrev Reg := BitVec 4

end Sys2Proof
end

