-- ==== Sys2Proof/Syntax.lean ====
section
/-! DEFINITION. The sixteen instructions (spec/00_scope.md R3, spec/30_encoding.md R74), their names, and the way the spec
writes them (R82). -/

namespace Sys2Proof

/-- One constructor for each row of spec/opcode_table.json, with the fields the row uses. -/
inductive Instr where
  | halt
  | clear
  | ret
  | jump (nnn : Addr)
  | call (nnn : Addr)
  | skipEqImm (x : Reg) (kk : Byte)
  | skipNeImm (x : Reg) (kk : Byte)
  | skipEqReg (x y : Reg)
  | loadImm (x : Reg) (kk : Byte)
  | addImm (x : Reg) (kk : Byte)
  | loadReg (x y : Reg)
  | orReg (x y : Reg)
  | andReg (x y : Reg)
  | xorReg (x y : Reg)
  | addReg (x y : Reg)
  | subReg (x y : Reg)
deriving DecidableEq, Repr

/-- The instruction's name in R74. -/
def Instr.mnemonic : Instr → String
  | .halt => "HALT"
  | .clear => "CLEAR"
  | .ret => "RETURN"
  | .jump _ => "JUMP"
  | .call _ => "CALL"
  | .skipEqImm _ _ => "SKIP-IF-EQUAL-IMM"
  | .skipNeImm _ _ => "SKIP-IF-NOT-EQUAL-IMM"
  | .skipEqReg _ _ => "SKIP-IF-EQUAL-REG"
  | .loadImm _ _ => "LOAD-IMM"
  | .addImm _ _ => "ADD-IMM"
  | .loadReg _ _ => "LOAD-REG"
  | .orReg _ _ => "OR"
  | .andReg _ _ => "AND"
  | .xorReg _ _ => "XOR"
  | .addReg _ _ => "ADD-REG"
  | .subReg _ _ => "SUB-REG"

/-- An operand as R82 writes it: a register `Vx`, a byte `kk` or an address `nnn`, each by its number. -/
inductive AsmOperand where
  | reg (n : Nat)
  | imm (n : Nat)
  | addr (n : Nat)
deriving DecidableEq, Repr

/-- An instruction as R82 writes it, a mnemonic and its operands, destination first, before anything is checked. -/
structure AsmInstr where
  mnemonic : String
  operands : List AsmOperand
deriving DecidableEq, Repr

/-- The instruction in the spec's assembly form (R82). -/
def Instr.toAsm (i : Instr) : AsmInstr :=
  { mnemonic := i.mnemonic
    operands :=
      match i with
      | .halt => []
      | .clear => []
      | .ret => []
      | .jump nnn => [.addr nnn.toNat]
      | .call nnn => [.addr nnn.toNat]
      | .skipEqImm x kk => [.reg x.toNat, .imm kk.toNat]
      | .skipNeImm x kk => [.reg x.toNat, .imm kk.toNat]
      | .skipEqReg x y => [.reg x.toNat, .reg y.toNat]
      | .loadImm x kk => [.reg x.toNat, .imm kk.toNat]
      | .addImm x kk => [.reg x.toNat, .imm kk.toNat]
      | .loadReg x y => [.reg x.toNat, .reg y.toNat]
      | .orReg x y => [.reg x.toNat, .reg y.toNat]
      | .andReg x y => [.reg x.toNat, .reg y.toNat]
      | .xorReg x y => [.reg x.toNat, .reg y.toNat]
      | .addReg x y => [.reg x.toNat, .reg y.toNat]
      | .subReg x y => [.reg x.toNat, .reg y.toNat] }

end Sys2Proof
end

