-- ==== Sys2Proof/WellFormed.lean ====
section
/-! DEFINITION. When a written instruction (spec/30_encoding.md R82) is one of the sixteen: its mnemonic stands in the table,
its operands have the row's form, and each fits its field (R71). A term of Instr holds its operands in fields of the right
width, so every term of Instr passes (R77: no field value is reserved); the checks bite on the written form. -/

namespace Sys2Proof

/-- The kinds of operand a row takes, in R82's order. -/
inductive OperandKind where
  | reg
  | imm
  | addr
deriving DecidableEq, Repr

/-- R82, R71: the operand kinds of each mnemonic; none for a name that is no row of the table. -/
def operandKinds (mnemonic : String) : Option (List OperandKind) :=
  if mnemonic ∈ ["HALT", "CLEAR", "RETURN"] then some []
  else if mnemonic ∈ ["JUMP", "CALL"] then some [.addr]
  else if mnemonic ∈ ["SKIP-IF-EQUAL-IMM", "SKIP-IF-NOT-EQUAL-IMM", "LOAD-IMM", "ADD-IMM"] then some [.reg, .imm]
  else if mnemonic ∈ ["SKIP-IF-EQUAL-REG", "LOAD-REG", "OR", "AND", "XOR", "ADD-REG", "SUB-REG"] then some [.reg, .reg]
  else none

/-- R71: the operand is of the kind and its number fits the field (4 bits, 8 bits, 12 bits). -/
def AsmOperand.fits : AsmOperand → OperandKind → Bool
  | .reg n, .reg => n < 2 ^ 4
  | .imm n, .imm => n < 2 ^ 8
  | .addr n, .addr => n < 2 ^ 12
  | .reg _, .imm => false
  | .reg _, .addr => false
  | .imm _, .reg => false
  | .imm _, .addr => false
  | .addr _, .reg => false
  | .addr _, .imm => false

/-- Each operand fits its place, and there are as many as the row takes. -/
def operandsFit : List AsmOperand → List OperandKind → Bool
  | [], [] => true
  | o :: os, k :: ks => o.fits k && operandsFit os ks
  | [], _ :: _ => false
  | _ :: _, [] => false

/-- The written instruction is one of the sixteen with operands that fit. -/
def AsmInstr.wellFormed (a : AsmInstr) : Bool :=
  match operandKinds a.mnemonic with
  | some ks => operandsFit a.operands ks
  | none => false

/-- The instruction passes every check, written out as R82 writes it. -/
def Instr.wellFormed (i : Instr) : Bool := i.toAsm.wellFormed

end Sys2Proof
end

