-- ==== Sys2Proof/Decode.lean ====
section
/-! DEFINITION. The decoder and the encoder (spec/30_encoding.md): the fields of a word (R71), the opcode map (R74) in the
document's order (R75), the rejection of every other word by name (R78), and the word of each instruction. -/

namespace Sys2Proof

/-- R52: the instruction word of two consecutive bytes, the first one the high byte. -/
def wordOfBytes (first second : Byte) : Word := first ++ second

/-- R52, R70: the byte of the word that stands at the lower address, bits 15 to 8. -/
def highByte (w : Word) : Byte := w.extractLsb' 8 8

/-- R52, R70: the byte of the word that stands at the higher address, bits 7 to 0. -/
def lowByte (w : Word) : Byte := w.extractLsb' 0 8

/-- R71: every field the decoder takes out of a word, whichever of them the instruction uses (R83: the decoder's outputs). -/
structure Fields where
  op : BitVec 4
  x : Reg
  y : Reg
  kk : Byte
  n : BitVec 4
  nnn : Addr
deriving DecidableEq, Repr

/-- R71: `op = w[15:12]`, `x = w[11:8]`, `y = w[7:4]`, `kk = w[7:0]`, `n = w[3:0]`, `nnn = w[11:0]`. -/
def fieldsOf (w : Word) : Fields :=
  { op := w.extractLsb' 12 4
    x := w.extractLsb' 8 4
    y := w.extractLsb' 4 4
    kk := w.extractLsb' 0 8
    n := w.extractLsb' 0 4
    nnn := w.extractLsb' 0 12 }

/-- Why bytes are no instruction. -/
inductive Reject where
  /-- The word matches no row of R74 (R78: UNSUPPORTED). -/
  | unsupported
  /-- Fewer than the two bytes an instruction takes (R70). -/
  | truncated
deriving DecidableEq, Repr

/-- R83: the decoder's class signal, one of the sixteen instructions with its operands, or a rejection. -/
inductive Decoded where
  | instr (i : Instr)
  | rejected (why : Reject)
deriving DecidableEq, Repr

/-- R170, R177: the family 0x8xyN, by its low nibble. -/
def decodeAlu (f : Fields) : Decoded :=
  match f.n with
  | 0x0#4 => .instr (.loadReg f.x f.y)
  | 0x1#4 => .instr (.orReg f.x f.y)
  | 0x2#4 => .instr (.andReg f.x f.y)
  | 0x3#4 => .instr (.xorReg f.x f.y)
  | 0x4#4 => .instr (.addReg f.x f.y)
  | 0x5#4 => .instr (.subReg f.x f.y)
  | _ => .rejected .unsupported

/-- R74, R75: the families told apart by the first nibble. -/
def decodeFamily (f : Fields) : Decoded :=
  match f.op with
  | 0x1#4 => .instr (.jump f.nnn)
  | 0x2#4 => .instr (.call f.nnn)
  | 0x3#4 => .instr (.skipEqImm f.x f.kk)
  | 0x4#4 => .instr (.skipNeImm f.x f.kk)
  | 0x5#4 => if f.n = 0x0#4 then .instr (.skipEqReg f.x f.y) else .rejected .unsupported
  | 0x6#4 => .instr (.loadImm f.x f.kk)
  | 0x7#4 => .instr (.addImm f.x f.kk)
  | 0x8#4 => decodeAlu f
  | _ => .rejected .unsupported

/-- R74, R75, R81: the decoder, a function of the word alone (R83); the exact words come before the families. -/
def decode (w : Word) : Decoded :=
  if w = 0x0000#16 then .instr .halt
  else if w = 0x00E0#16 then .instr .clear
  else if w = 0x00EE#16 then .instr .ret
  else decodeFamily (fieldsOf w)

/-- R70, R52: the instruction at the front of any bytes, with the bytes after it; every instruction takes two. -/
def decodeBytes : List Byte → Decoded × List Byte
  | first :: second :: rest => (decode (wordOfBytes first second), rest)
  | [b] => (.rejected .truncated, [b])
  | [] => (.rejected .truncated, [])

/-- The word with the four nibbles `op`, `x`, `y`, `n` (R71). -/
def wordXYN (op : BitVec 4) (x y : Reg) (n : BitVec 4) : Word := op ++ x ++ y ++ n

/-- The word with the fields `op`, `x`, `kk` (R71). -/
def wordXKK (op : BitVec 4) (x : Reg) (kk : Byte) : Word := op ++ x ++ kk

/-- The word with the fields `op`, `nnn` (R71). -/
def wordNNN (op : BitVec 4) (nnn : Addr) : Word := op ++ nnn

/-- R74: the word of an instruction; every bit is fixed or belongs to a field the instruction uses (R77). -/
def encode : Instr → Word
  | .halt => 0x0000#16
  | .clear => 0x00E0#16
  | .ret => 0x00EE#16
  | .jump nnn => wordNNN 0x1#4 nnn
  | .call nnn => wordNNN 0x2#4 nnn
  | .skipEqImm x kk => wordXKK 0x3#4 x kk
  | .skipNeImm x kk => wordXKK 0x4#4 x kk
  | .skipEqReg x y => wordXYN 0x5#4 x y 0x0#4
  | .loadImm x kk => wordXKK 0x6#4 x kk
  | .addImm x kk => wordXKK 0x7#4 x kk
  | .loadReg x y => wordXYN 0x8#4 x y 0x0#4
  | .orReg x y => wordXYN 0x8#4 x y 0x1#4
  | .andReg x y => wordXYN 0x8#4 x y 0x2#4
  | .xorReg x y => wordXYN 0x8#4 x y 0x3#4
  | .addReg x y => wordXYN 0x8#4 x y 0x4#4
  | .subReg x y => wordXYN 0x8#4 x y 0x5#4

/-- R52: the two bytes of an instruction, in the order memory holds them. -/
def encodeBytes (i : Instr) : List Byte := [highByte (encode i), lowByte (encode i)]

/-- One row of R74: a word is the instruction when its bits under the mask equal `value`. -/
structure OpcodeRow where
  mnemonic : String
  mask : Word
  value : Word
deriving DecidableEq, Repr

/-- R74: `w & mask == match`. -/
def OpcodeRow.matchesWord (r : OpcodeRow) (w : Word) : Bool := (w &&& r.mask) == r.value

/-- The rows of R74 with an exact word or a first nibble 0x1 to 0x7. -/
def opcodeRowsFamilies : List OpcodeRow :=
  [ ⟨"HALT", 0xFFFF#16, 0x0000#16⟩,
    ⟨"CLEAR", 0xFFFF#16, 0x00E0#16⟩,
    ⟨"RETURN", 0xFFFF#16, 0x00EE#16⟩,
    ⟨"JUMP", 0xF000#16, 0x1000#16⟩,
    ⟨"CALL", 0xF000#16, 0x2000#16⟩,
    ⟨"SKIP-IF-EQUAL-IMM", 0xF000#16, 0x3000#16⟩,
    ⟨"SKIP-IF-NOT-EQUAL-IMM", 0xF000#16, 0x4000#16⟩,
    ⟨"SKIP-IF-EQUAL-REG", 0xF00F#16, 0x5000#16⟩,
    ⟨"LOAD-IMM", 0xF000#16, 0x6000#16⟩,
    ⟨"ADD-IMM", 0xF000#16, 0x7000#16⟩ ]

/-- The rows of R74 with the first nibble 0x8. -/
def opcodeRowsAlu : List OpcodeRow :=
  [ ⟨"LOAD-REG", 0xF00F#16, 0x8000#16⟩,
    ⟨"OR", 0xF00F#16, 0x8001#16⟩,
    ⟨"AND", 0xF00F#16, 0x8002#16⟩,
    ⟨"XOR", 0xF00F#16, 0x8003#16⟩,
    ⟨"ADD-REG", 0xF00F#16, 0x8004#16⟩,
    ⟨"SUB-REG", 0xF00F#16, 0x8005#16⟩ ]

/-- R74: the opcode map as masks and matches, in the document's order. -/
def opcodeTable : List OpcodeRow := opcodeRowsFamilies ++ opcodeRowsAlu

/-- The two bytes, as memory holds them (R52), of a word given by its bits: the bits above `nbits` are zero. -/
def bytesOfTableWord (nbits w : Nat) : List Byte :=
  let v : Word := BitVec.ofNat 16 (w % 2 ^ nbits)
  [highByte v, lowByte v]

/-- The instruction the decoder reads from a word numbered as spec/opcode_table.json numbers it. -/
def decodeTableWord (nbits w : Nat) : Option Instr :=
  match (decodeBytes (bytesOfTableWord nbits w)).1 with
  | .instr i => some i
  | .rejected _ => none

/-- R82: the instruction a written line names, its operands taken into the fields' widths. -/
def assembleFields (a : AsmInstr) : Option Instr :=
  match a.mnemonic, a.operands with
  | "HALT", [] => some .halt
  | "CLEAR", [] => some .clear
  | "RETURN", [] => some .ret
  | "JUMP", [.addr n] => some (.jump (BitVec.ofNat 12 n))
  | "CALL", [.addr n] => some (.call (BitVec.ofNat 12 n))
  | "SKIP-IF-EQUAL-IMM", [.reg x, .imm k] => some (.skipEqImm (BitVec.ofNat 4 x) (BitVec.ofNat 8 k))
  | "SKIP-IF-NOT-EQUAL-IMM", [.reg x, .imm k] => some (.skipNeImm (BitVec.ofNat 4 x) (BitVec.ofNat 8 k))
  | "SKIP-IF-EQUAL-REG", [.reg x, .reg y] => some (.skipEqReg (BitVec.ofNat 4 x) (BitVec.ofNat 4 y))
  | "LOAD-IMM", [.reg x, .imm k] => some (.loadImm (BitVec.ofNat 4 x) (BitVec.ofNat 8 k))
  | "ADD-IMM", [.reg x, .imm k] => some (.addImm (BitVec.ofNat 4 x) (BitVec.ofNat 8 k))
  | "LOAD-REG", [.reg x, .reg y] => some (.loadReg (BitVec.ofNat 4 x) (BitVec.ofNat 4 y))
  | "OR", [.reg x, .reg y] => some (.orReg (BitVec.ofNat 4 x) (BitVec.ofNat 4 y))
  | "AND", [.reg x, .reg y] => some (.andReg (BitVec.ofNat 4 x) (BitVec.ofNat 4 y))
  | "XOR", [.reg x, .reg y] => some (.xorReg (BitVec.ofNat 4 x) (BitVec.ofNat 4 y))
  | "ADD-REG", [.reg x, .reg y] => some (.addReg (BitVec.ofNat 4 x) (BitVec.ofNat 4 y))
  | "SUB-REG", [.reg x, .reg y] => some (.subReg (BitVec.ofNat 4 x) (BitVec.ofNat 4 y))
  | _, _ => none

/-- R82: the instruction of a written line; a line that is not well-formed is none. -/
def assemble (a : AsmInstr) : Option Instr := if a.wellFormed then assembleFields a else none

end Sys2Proof
end

