-- ==== Sys2Proof/Config.lean ====
section
/-! DEFINITION. The fixed parameters of CHIP8-R8CORE (spec/00_scope.md R9) and the two parameters a conservative model may
set otherwise (spec/92_eei_decisions.md D4, D5). The spec leaves no value of this core free, so there is no free value here. -/

namespace Sys2Proof.Config

/-- R9 `FLAGREG`, R24: the register that doubles as the flag. -/
def flagReg : Reg := 0xF#4

/-- R9 `MEMSIZE`, R50: memory holds the addresses 0x000 to 0xFFF. -/
def memSize : Nat := 0x1000

/-- R53: the last address at which both bytes of an instruction exist. -/
def lastFetch : Nat := 0xFFE

/-- R9 `ENTRY`, R232: the address of the first fetch of a run. -/
def entry : Word := 0x0000#16

/-- What a fetch at an odd address does (D4). -/
inductive OddFetch where
  | allow
  | fault
deriving DecidableEq, Repr

/-- What ADD-REG and SUB-REG do when `x` or `y` is 0xF (D5). -/
inductive VfOperand where
  | snapshot
  | fault
deriving DecidableEq, Repr

/-- The parameters of spec/92_eei_decisions.md that a conservative model may set. -/
structure Params where
  oddFetch : OddFetch
  vfOperand : VfOperand
deriving DecidableEq, Repr

/-- The spec's own decision on both (D4 `allow`, D5 `snapshot`): the machine of every numbered rule. -/
def standard : Params := { oddFetch := .allow, vfOperand := .snapshot }

end Sys2Proof.Config
end

