-- ==== Sys2Proof/Machine/State.lean ====
section
/-! DEFINITION. The machine state of spec/10_state.md R20, the reasons a Lean step can stop, and the state after reset. -/

namespace Sys2Proof.Machine

/-- R36: the states of the fetch-decode-execute machine. -/
inductive Status where
  | idle
  | running
  | halted
  | fault
deriving DecidableEq, Repr

/-- R37: which fatal condition ended a run. -/
inductive Cause where
  | none
  | stackUnderflow
  | stackOverflow
  | unsupportedOpcode
  | fetchOutOfRange
deriving DecidableEq, Repr

/-- The bytes of memory that differ from 0x00, each with its address, addresses strictly rising (log 11). -/
abbrev Memory := List Host.Cell

/-- R20: one record with these fields and no others. -/
structure State where
  /-- The general registers V0 to VF (R21). -/
  v : Vector Byte 16
  /-- Memory, addresses 0x000 to 0xFFF (R50). -/
  mem : Memory
  /-- The program counter (R28). -/
  pc : Word
  /-- The call stack S[0] to S[15] (R32). -/
  stack : Vector Word 16
  /-- The count of occupied slots (R33). -/
  sp : Fin 17
  /-- The run state (R36). -/
  status : Status
  /-- The fatal cause (R37). -/
  cause : Cause
  /-- `fault_pc` (R38). -/
  faultPc : Word
  /-- `fault_opcode` (R38). -/
  faultOpcode : Word
deriving DecidableEq, Repr

/-- Why a step of the conservative variant (spec/92_eei_decisions.md D4, D5) stops. The machine itself never stops this way:
its fatal conditions are next states (R205). -/
inductive Fault where
  /-- Raised by stepWith alone, under ODD_FETCH = fault, at a fetch from an odd address (D4). Safe: the machine goes on. -/
  | oddFetch
  /-- Raised by stepWith alone, under VF_OPERAND = fault, at ADD-REG or SUB-REG with x or y = 0xF (D5). Safe: the machine
  goes on. -/
  | vfOperand
deriving DecidableEq, Repr

/-- Why an instruction has no meaning. Nothing raises it: every instruction of the table has its meaning. -/
inductive Refusal where
  /-- Raised by an arm of exec whose instruction has no meaning yet; no arm is. Safe. -/
  | notModelled (mnemonic : String)
deriving DecidableEq, Repr

/-- R20, R230: every field at its reset value. -/
def State.reset : State :=
  { v := Vector.replicate 16 0x00#8
    mem := []
    pc := Config.entry
    stack := Vector.replicate 16 0x0000#16
    sp := 0
    status := .idle
    cause := .none
    faultPc := 0x0000#16
    faultOpcode := 0x0000#16 }

end Sys2Proof.Machine
end

