-- ==== Sys2Proof/Machine/Ops.lean ====
section
/-! DEFINITION. The named operations over registers, memory, the call stack and the fault record: every meaning and the fetch
are written over these. -/

namespace Sys2Proof.Machine

/-- R12: the value of `V[r]`. -/
def State.readV (s : State) (r : Reg) : Byte := s.v[r.toNat]'r.isLt

/-- R12: `V[r] <- b`. No register is hardwired (R21). -/
def State.writeV (s : State) (r : Reg) (b : Byte) : State := { s with v := s.v.set r.toNat b r.isLt }

/-- R12: `pc <- t`. -/
def State.setPc (s : State) (t : Word) : State := { s with pc := t }

/-- R100: `status <- st`. -/
def State.setStatus (s : State) (st : Status) : State := { s with status := st }

/-- R12: the call-stack slot `S[k]`. -/
def State.slot (s : State) (k : Fin 16) : Word := s.stack[k.val]

/-- R51: `MemRead(a, 1)`, defined for the addresses of memory alone. -/
def memRead (a : Nat) (s : State) : Option Byte := if a < Config.memSize then some (s.mem.read a) else none

/-- R117: the test `sp == 16`. -/
def State.stackFull (s : State) : Bool := s.sp.val == 16

/-- R117: the test `sp == 0`. -/
def State.stackEmpty (s : State) : Bool := s.sp.val == 0

/-- R117: write `S[sp]`, then `sp <- sp + 1`. CALL pushes only where the stack is not full (R132); a full stack is left alone. -/
def State.push (s : State) (t : Word) : State :=
  if h : s.sp.val < 16 then
    { s with stack := s.stack.set s.sp.val t h, sp := ⟨s.sp.val + 1, by omega⟩ }
  else s

/-- R33: the slot `S[sp - 1]`, which RETURN reads only where the stack is not empty (R130). -/
def State.top (s : State) : Word := s.slot ⟨s.sp.val - 1, by omega⟩

/-- R117, R34: `sp <- sp - 1`; the popped slot keeps its value. -/
def State.pop (s : State) : State := { s with sp := ⟨s.sp.val - 1, by omega⟩ }

/-- R205: fault entry, the one exception entry of the core. `a` is the address of the faulting fetch or instruction and `w` its
word; nothing else is written, and control goes nowhere. -/
def raiseFatal (c : Cause) (a w : Word) (s : State) : State :=
  { s with cause := c, faultPc := a, faultOpcode := w, status := .fault }

/-- R28: the address of the instruction that executes; while it does, `pc` holds `A + 2`. -/
def State.instrAddr (s : State) : Word := s.pc - 2#16

/-- R205: a fatal condition of an instruction's execution, with the address it was fetched from (R28) and its word, which
R77 makes a function of the instruction. -/
def raiseFatalIn (c : Cause) (i : Instr) (s : State) : State := raiseFatal c s.instrAddr (encode i) s

/-- R207, R230: the only way out of HALTED and FAULT, in any state: every field to its reset value. There is no return from
a fault. -/
def resetMachine (_ : State) : State := State.reset

/-- R36: the code on the status output. -/
def Status.code : Status → BitVec 2
  | .idle => 0#2
  | .running => 1#2
  | .halted => 2#2
  | .fault => 3#2

/-- R37: the code of `cause`; the values 5 to 7 are never written. -/
def Cause.code : Cause → BitVec 3
  | .none => 0#3
  | .stackUnderflow => 1#3
  | .stackOverflow => 2#3
  | .unsupportedOpcode => 3#3
  | .fetchOutOfRange => 4#3

end Sys2Proof.Machine
end

