-- ==== Sys2Proof/Machine/Operands.lean ====
section
/-! DEFINITION. The operand forms of spec/30_encoding.md R72 and R73, and the additions to pc that spec/40_engine.md R116 names. -/

namespace Sys2Proof.Machine

/-- R72: a register operand is the register's value, never its index. -/
def State.operand (s : State) (r : Reg) : Byte := s.readV r

/-- R73: an address operand, zero-extended to the width of `pc`. -/
def zext16 (nnn : Addr) : Word := nnn.setWidth 16

/-- R116: the fetch's advance, `pc <- pc + 2`; R150: a taken skip adds the same again. -/
def State.advance (s : State) : State := s.setPc (s.pc + 2#16)

/-- R150 to R152: the skip of the next instruction on a condition. -/
def State.skipIf (s : State) (c : Bool) : State := if c then s.advance else s

end Sys2Proof.Machine
end

