-- ==== Sys2Proof/Machine/Flags.lean ====
section
/-! DEFINITION. The ALU of spec/40_engine.md R115 and the two flag outcomes of spec/10_state.md R25, on unsigned 8-bit values
(spec/45_alu.md R178). -/

namespace Sys2Proof.Machine

/-- R24: `VF`. -/
def VF : Reg := Config.flagReg

/-- R178: `(a + b) mod 256`. -/
def aluAdd (a b : Byte) : Byte := a + b

/-- R178: `(a - b) mod 256`. -/
def aluSub (a b : Byte) : Byte := a - b

/-- R115: `a | b`. -/
def aluOr (a b : Byte) : Byte := a ||| b

/-- R115: `a & b`. -/
def aluAnd (a b : Byte) : Byte := a &&& b

/-- R115: `a ^ b`. -/
def aluXor (a b : Byte) : Byte := a ^^^ b

/-- R115: the comparison `a == b`. -/
def aluEq (a b : Byte) : Bool := a == b

/-- R175: 1 if `a + b > 255`, else 0. -/
def carryFlag (a b : Byte) : Byte := if a.toNat + b.toNat > 255 then 1#8 else 0#8

/-- R176: 1 if `a > b`, else 0 (equal operands give 0). -/
def greaterFlag (a b : Byte) : Byte := if a.toNat > b.toNat then 1#8 else 0#8

end Sys2Proof.Machine
end

