-- ==== Sys2Proof/Machine/Alu.lean ====
section
/-! DEFINITION. The register ALU family 0x8xyN (spec/45_alu.md). R170: both operands are read before any write, and the writes
happen in the order written. -/

namespace Sys2Proof.Machine

/-- R171 LOAD-REG: `V[x] <- V[y]`. -/
def execLoadReg (x y : Reg) (s : State) : Host.Outcome State Fault Refusal := .next (s.writeV x (s.operand y))

/-- R172 OR. -/
def execOrReg (x y : Reg) (s : State) : Host.Outcome State Fault Refusal :=
  .next (s.writeV x (aluOr (s.operand x) (s.operand y)))

/-- R173 AND. -/
def execAndReg (x y : Reg) (s : State) : Host.Outcome State Fault Refusal :=
  .next (s.writeV x (aluAnd (s.operand x) (s.operand y)))

/-- R174 XOR. -/
def execXorReg (x y : Reg) (s : State) : Host.Outcome State Fault Refusal :=
  .next (s.writeV x (aluXor (s.operand x) (s.operand y)))

/-- R175 ADD-REG: the sum, then the carry into `VF`, which is the write that remains where x = 0xF. -/
def execAddReg (x y : Reg) (s : State) : Host.Outcome State Fault Refusal :=
  let a := s.operand x
  let b := s.operand y
  .next ((s.writeV x (aluAdd a b)).writeV VF (carryFlag a b))

/-- R176 SUB-REG: `VF` is whether `a > b`, then the difference, which is the write that remains where x = 0xF. -/
def execSubReg (x y : Reg) (s : State) : Host.Outcome State Fault Refusal :=
  let a := s.operand x
  let b := s.operand y
  .next ((s.writeV VF (greaterFlag a b)).writeV x (aluSub a b))

end Sys2Proof.Machine
end

