-- ==== Sys2Proof/Machine/Flow.lean ====
section
/-! DEFINITION. RETURN, JUMP and CALL (spec/42_flow.md). Each meaning runs after the fetch, so `pc` holds `A + 2` (R101). -/

namespace Sys2Proof.Machine

/-- R130 RETURN: STACK_UNDERFLOW on an empty stack; else pop the return address into `pc`. -/
def execRet (s : State) : Host.Outcome State Fault Refusal :=
  if s.stackEmpty then .next (raiseFatalIn .stackUnderflow .ret s)
  else .next (s.pop.setPc s.top)

/-- R131 JUMP: `pc <- zext_16(nnn)`. -/
def execJump (nnn : Addr) (s : State) : Host.Outcome State Fault Refusal := .next (s.setPc (zext16 nnn))

/-- R132 CALL, with R135's strict bound: STACK_OVERFLOW on a full stack; else push `pc` and go to the target. -/
def execCall (nnn : Addr) (s : State) : Host.Outcome State Fault Refusal :=
  if s.stackFull then .next (raiseFatalIn .stackOverflow (.call nnn) s)
  else .next ((s.push s.pc).setPc (zext16 nnn))

end Sys2Proof.Machine
end

