-- ==== Sys2Proof/Machine/Immediate.lean ====
section
/-! DEFINITION. LOAD-IMM and ADD-IMM (spec/44_immediate.md). -/

namespace Sys2Proof.Machine

/-- R160 LOAD-IMM: `V[x] <- kk`. -/
def execLoadImm (x : Reg) (kk : Byte) (s : State) : Host.Outcome State Fault Refusal := .next (s.writeV x kk)

/-- R161 ADD-IMM: the sum mod 256, with no flag. -/
def execAddImm (x : Reg) (kk : Byte) (s : State) : Host.Outcome State Fault Refusal :=
  .next (s.writeV x (aluAdd (s.operand x) kk))

end Sys2Proof.Machine
end

