-- ==== Sys2Proof/Machine/Skip.lean ====
section
/-! DEFINITION. The conditional skips (spec/43_skip.md). Each meaning runs after the fetch, so `pc` holds `A + 2` (R101). -/

namespace Sys2Proof.Machine

/-- R150 SKIP-IF-EQUAL-IMM. -/
def execSkipEqImm (x : Reg) (kk : Byte) (s : State) : Host.Outcome State Fault Refusal :=
  .next (s.skipIf (aluEq (s.operand x) kk))

/-- R151 SKIP-IF-NOT-EQUAL-IMM. -/
def execSkipNeImm (x : Reg) (kk : Byte) (s : State) : Host.Outcome State Fault Refusal :=
  .next (s.skipIf (!aluEq (s.operand x) kk))

/-- R152 SKIP-IF-EQUAL-REG: the values are compared, not the index (R153, spec/90_conflicts.md C5). -/
def execSkipEqReg (x y : Reg) (s : State) : Host.Outcome State Fault Refusal :=
  .next (s.skipIf (aluEq (s.operand x) (s.operand y)))

end Sys2Proof.Machine
end

