-- ==== Sys2Proof/Machine/System.lean ====
section
/-! DEFINITION. HALT and CLEAR (spec/41_system.md). Each meaning runs after the fetch, so `pc` already holds `A + 2` (R101). -/

namespace Sys2Proof.Machine

/-- R120 HALT: `status <- HALTED`; `pc` stays `A + 2`. -/
def execHalt (s : State) : Host.Outcome State Fault Refusal := .next (s.setStatus .halted)

/-- R121 CLEAR: no state change; the core has no display (R122). -/
def execClear (s : State) : Host.Outcome State Fault Refusal := .next s

end Sys2Proof.Machine
end

