-- ==== Sys2Proof/Machine/Engine.lean ====
section
/-! DEFINITION. The engine of spec/40_engine.md: the fetch (R101), the step in one piece (R105), what each run state does with
it (R100), and the placing of one instruction for the next fetch. -/

namespace Sys2Proof.Machine

/-- R101, R52, R53: the word at `pc`, the byte at the lower address high; none where the fetch is out of range, and then
nothing is read. R54: any `pc`, odd or even. -/
def fetchWord (s : State) : Option Word :=
  if Config.lastFetch < s.pc.toNat then none
  else
    match memRead s.pc.toNat s, memRead (s.pc.toNat + 1) s with
    | some first, some second => some (wordOfBytes first second)
    | _, _ => none

/-- R102, R103, R202: decode a fetched word and run its instruction in the state after the fetch; a word that is none raises
UNSUPPORTED_OPCODE. -/
def decodeAndExec (w : Word) (s : State) : Host.Outcome State Fault Refusal :=
  match decode w with
  | .instr i => exec i s
  | .rejected _ => .next (raiseFatal .unsupportedOpcode s.instrAddr w s)

/-- R105: one step in RUNNING. R203: a fetch out of range leaves `pc` as it is and records 0x0000 for the word. -/
def runStep (s : State) : Host.Outcome State Fault Refusal :=
  match fetchWord s with
  | none => .next (raiseFatal .fetchOutOfRange s.pc 0x0000#16 s)
  | some w => decodeAndExec w s.advance

/-- R100: the engine steps in RUNNING alone (R109: no fetch elsewhere); IDLE waits for the host and HALTED and FAULT are
final, so there a step changes nothing. -/
def engineStep (s : State) : Host.Outcome State Fault Refusal :=
  match s.status with
  | .running => runStep s
  | .idle => .next s
  | .halted => .next s
  | .fault => .next s

/-- Bytes written to memory one after another from an address on. -/
def writeBytes : Memory → Nat → List Byte → Memory
  | m, _, [] => m
  | m, a, b :: bs => writeBytes (m.write a b) (a + 1) bs

/-- Where the next instruction can be fetched: `pc`, or the entry point where `pc` lies beyond the last fetch (log 17). -/
def fetchablePc (s : State) : Word := if Config.lastFetch < s.pc.toNat then Config.entry else s.pc

/-- The state whose next step fetches the given word: its bytes stand at `pc` and the run has started (R110, R100). -/
def placeTableWord (s : State) (nbits w : Nat) : State :=
  { s with
    mem := writeBytes s.mem (fetchablePc s).toNat (bytesOfTableWord nbits w)
    pc := fetchablePc s
    status := .running }

end Sys2Proof.Machine
end

