-- ==== Sys2Proof/Machine/Step.lean ====
section
/-! DEFINITION. One step of the machine (spec/40_engine.md R104, R105), and the state that fetches a given instruction next. -/

namespace Sys2Proof.Machine

/-- R104: one step, a function of the state alone. -/
def step (s : State) : Host.Outcome State Fault Refusal := Sys2Proof.Machine.engineStep s

/-- The state with an instruction placed where the next step fetches it, and the run started. -/
def State.withFetchWord (s : State) (nbits w : Nat) : State := Sys2Proof.Machine.placeTableWord s nbits w

end Sys2Proof.Machine
end

