-- ==== Sys2Proof/Machine/Conservative.lean ====
section
/-! DEFINITION. The conservative variant spec/92_eei_decisions.md names beside its own decisions: ODD_FETCH (D4) and VF_OPERAND
(D5) as parameters. Under `Config.standard` it is the machine. -/

namespace Sys2Proof.Machine

/-- D4: the step would fetch at an odd address. -/
def fetchesOdd (s : State) : Bool := (fetchWord s).isSome && s.pc.toNat % 2 == 1

/-- D5: ADD-REG or SUB-REG with x or y = 0xF. -/
def usesVfOperand : Instr → Bool
  | .addReg x y => x == VF || y == VF
  | .subReg x y => x == VF || y == VF
  | .halt => false
  | .clear => false
  | .ret => false
  | .jump _ => false
  | .call _ => false
  | .skipEqImm _ _ => false
  | .skipNeImm _ _ => false
  | .skipEqReg _ _ => false
  | .loadImm _ _ => false
  | .addImm _ _ => false
  | .loadReg _ _ => false
  | .orReg _ _ => false
  | .andReg _ _ => false
  | .xorReg _ _ => false

/-- D5: the instruction at `pc` is one of those. -/
def runsVfOperand (s : State) : Bool :=
  match fetchWord s with
  | none => false
  | some w =>
    match decode w with
    | .instr i => usesVfOperand i
    | .rejected _ => false

/-- D4, D5: the step with the parameters set; the fetch is tested before the operands. -/
def stepWith (p : Config.Params) (s : State) : Host.Outcome State Fault Refusal :=
  if s.status = .running ∧ p.oddFetch = .fault ∧ fetchesOdd s then .fault .oddFetch
  else if s.status = .running ∧ p.vfOperand = .fault ∧ runsVfOperand s then .fault .vfOperand
  else step s

end Sys2Proof.Machine
end

