-- ==== Sys2Proof/Machine/HostPort.lean ====
section
/-! DEFINITION. What the host can do to the machine (spec/40_engine.md R108 to R112, spec/70_reset_and_hazards.md R230 to R235):
reset at any time, loads and start in IDLE, and the observation port. What the host may not do has no move here. -/

namespace Sys2Proof.Machine

/-- R112: the host's moves that change the machine. -/
inductive HostMove where
  | reset
  | loadByte (a : Addr) (b : Byte)
  | loadReg (r : Reg) (b : Byte)
  | start
deriving DecidableEq, Repr

/-- R110: one memory byte written by the host. -/
def loadByte (a : Addr) (b : Byte) (s : State) : State := { s with mem := s.mem.write a.toNat b }

/-- R110: one register written by the host. -/
def loadReg (r : Reg) (b : Byte) (s : State) : State := s.writeV r b

/-- R100: `start` enters RUNNING and changes nothing else; the first step fetches at the current `pc`. -/
def startRun (s : State) : State := s.setStatus .running

/-- R112: the state after a host move; none where the host has no such move. -/
def hostMove (m : HostMove) (s : State) : Option State :=
  match m with
  | .reset => some (resetMachine s)
  | .loadByte a b => if s.status = .idle then some (loadByte a b s) else none
  | .loadReg r b => if s.status = .idle then some (loadReg r b s) else none
  | .start => if s.status = .idle then some (startRun s) else none

/-- Host moves one after another; none as soon as one does not exist. -/
def hostMoves : List HostMove → State → Option State
  | [], s => some s
  | m :: ms, s => (hostMove m s).bind (hostMoves ms)

/-- R111: a register, read in IDLE, HALTED or FAULT. -/
def observeReg (r : Reg) (s : State) : Option Byte := if s.status = .running then none else some (s.readV r)

/-- R111, R36: the status output, read in any state. -/
def observeStatus (s : State) : BitVec 2 := s.status.code

/-- R111, R37: `cause`, read in any state. -/
def observeCause (s : State) : BitVec 3 := s.cause.code

/-- R111, R38: `fault_pc`, read in any state. -/
def observeFaultPc (s : State) : Word := s.faultPc

/-- R111, R38: `fault_opcode`, read in any state. -/
def observeFaultOpcode (s : State) : Word := s.faultOpcode

/-- R109: the address the fetch port requests in a step; none in IDLE, HALTED and FAULT, and none beyond 0xFFE. -/
def fetchRequest (s : State) : Option Word :=
  if s.status = .running ∧ s.pc.toNat ≤ Config.lastFetch then some s.pc else none

end Sys2Proof.Machine
end

