-- ==== Sys2Proof/Safety.lean ====
section
/-! DEFINITION. The words statements about the machine are written in: what a transition leaves unchanged, which registers an
instruction reads and writes (spec/10_state.md R22), the next-address table (R30), launch states (spec/70_reset_and_hazards.md
R236), the invariant of the machine and the states it can reach. -/

namespace Sys2Proof.Machine

/-- Every register but the named ones holds what it held. -/
def RegsKeptBut (rs : List Reg) (s t : State) : Prop := ∀ r, r ∉ rs → t.readV r = s.readV r

/-- The stack pointer and every call-stack slot hold what they held. -/
def StackKept (s t : State) : Prop := t.sp = s.sp ∧ ∀ k, t.slot k = s.slot k

/-- `cause`, `fault_pc` and `fault_opcode` hold what they held. -/
def RecordKept (s t : State) : Prop :=
  t.cause = s.cause ∧ t.faultPc = s.faultPc ∧ t.faultOpcode = s.faultOpcode

/-- Every address of memory reads as it did (and what lies outside memory still does not exist). -/
def MemoryKept (s t : State) : Prop := ∀ a, memRead a t = memRead a s

/-- Everything but the registers, `pc` included, is as it was. -/
def OnlyRegsMayChange (s t : State) : Prop :=
  t.pc = s.pc ∧ StackKept s t ∧ t.status = s.status ∧ RecordKept s t ∧ MemoryKept s t

/-- Everything but `pc` is as it was. -/
def OnlyPcMayChange (s t : State) : Prop :=
  RegsKeptBut [] s t ∧ StackKept s t ∧ t.status = s.status ∧ RecordKept s t ∧ MemoryKept s t

/-- R22: the registers an instruction reads. -/
def regsRead : Instr → List Reg
  | .halt => []
  | .clear => []
  | .ret => []
  | .jump _ => []
  | .call _ => []
  | .skipEqImm x _ => [x]
  | .skipNeImm x _ => [x]
  | .skipEqReg x y => [x, y]
  | .loadImm _ _ => []
  | .addImm x _ => [x]
  | .loadReg _ y => [y]
  | .orReg x y => [x, y]
  | .andReg x y => [x, y]
  | .xorReg x y => [x, y]
  | .addReg x y => [x, y]
  | .subReg x y => [x, y]

/-- R22: the register an instruction names as its destination. -/
def destReg : Instr → Option Reg
  | .halt => none
  | .clear => none
  | .ret => none
  | .jump _ => none
  | .call _ => none
  | .skipEqImm _ _ => none
  | .skipNeImm _ _ => none
  | .skipEqReg _ _ => none
  | .loadImm x _ => some x
  | .addImm x _ => some x
  | .loadReg x _ => some x
  | .orReg x _ => some x
  | .andReg x _ => some x
  | .xorReg x _ => some x
  | .addReg x _ => some x
  | .subReg x _ => some x

/-- R22: the registers an instruction writes, its destination and the `VF` of ADD-REG and SUB-REG. -/
def regsWritten : Instr → List Reg
  | .addReg x _ => [x, VF]
  | .subReg x _ => [x, VF]
  | i => (destReg i).toList

/-- R30: the value of `pc` after the step that fetched at `s.pc` an instruction, or an UNSUPPORTED word. -/
def nextAddress (s : State) : Decoded → Word
  | .rejected _ => s.pc + 2#16
  | .instr (.skipEqImm x kk) => if s.readV x = kk then s.pc + 4#16 else s.pc + 2#16
  | .instr (.skipNeImm x kk) => if s.readV x ≠ kk then s.pc + 4#16 else s.pc + 2#16
  | .instr (.skipEqReg x y) => if s.readV x = s.readV y then s.pc + 4#16 else s.pc + 2#16
  | .instr (.jump nnn) => nnn.setWidth 16
  | .instr (.call nnn) => if s.sp.val = 16 then s.pc + 2#16 else nnn.setWidth 16
  | .instr .ret => if h : s.sp.val = 0 then s.pc + 2#16 else s.slot ⟨s.sp.val - 1, by omega⟩
  | .instr .halt => s.pc + 2#16
  | .instr .clear => s.pc + 2#16
  | .instr (.loadImm _ _) => s.pc + 2#16
  | .instr (.addImm _ _) => s.pc + 2#16
  | .instr (.loadReg _ _) => s.pc + 2#16
  | .instr (.orReg _ _) => s.pc + 2#16
  | .instr (.andReg _ _) => s.pc + 2#16
  | .instr (.xorReg _ _) => s.pc + 2#16
  | .instr (.addReg _ _) => s.pc + 2#16
  | .instr (.subReg _ _) => s.pc + 2#16

/-- R118: the run has ended. -/
def State.Ended (s : State) : Prop := s.status = .halted ∨ s.status = .fault

/-- R236: a launch state, with any registers and any memory. -/
def State.Launch (s : State) : Prop :=
  s.status = .running ∧ s.pc = 0x0000#16 ∧ s.sp = 0 ∧ (∀ k, s.slot k = 0x0000#16) ∧
  s.cause = .none ∧ s.faultPc = 0x0000#16 ∧ s.faultOpcode = 0x0000#16

/-- R205, R203: what the fault record says agrees with where the run stopped. -/
def State.RecordAgrees (s : State) : Prop :=
  if s.cause = .fetchOutOfRange then
    s.faultPc = s.pc ∧ s.faultOpcode = 0x0000#16 ∧ 0xFFE < s.pc.toNat
  else
    s.pc = s.faultPc + 2#16 ∧ fetchWord (s.setPc s.faultPc) = some s.faultOpcode

/-- The invariant of the machine: memory is in canonical form (R50), `pc` and every return address stay in the range of
R29, the fault record is written exactly in FAULT (R37, R38) and agrees with the state, and in IDLE the run has not begun
(R230, R232). -/
def State.Inv (s : State) : Prop :=
  s.mem.wf = true ∧
  s.pc.toNat ≤ 0x1002 ∧
  (∀ k, (s.slot k).toNat ≤ 0x1000) ∧
  (s.status = .fault → s.cause ≠ .none ∧ s.RecordAgrees) ∧
  (s.status ≠ .fault → s.cause = .none ∧ s.faultPc = 0x0000#16 ∧ s.faultOpcode = 0x0000#16) ∧
  (s.status = .idle → s.pc = 0x0000#16 ∧ s.sp = 0)

/-- The states the machine and its host can reach from reset: steps and host moves in any order (R100, R112). -/
inductive Reachable : State → Prop where
  | reset : Reachable State.reset
  | step (s t : State) : Reachable s → step s = .next t → Reachable t
  | host (m : HostMove) (s t : State) : Reachable s → hostMove m s = some t → Reachable t

end Sys2Proof.Machine
end

