-- ==== Sys2Proof/Certificates/Slice0/Obligations.lean ====
section
/-! DEFINITION. The statements for the provers, each from a rule or a section of spec/. Where an instruction is run by `exec`,
the state is the one after the fetch (spec/40_engine.md R103): its `pc` is `A + 2`. -/

open Sys2Proof
open Sys2Proof.Machine

/-! ## Encoding -/

/-- spec/95_test_vectors.md V-DEC: every word of its table decodes as it says, with the operands it gives, and 0xABCD, which no
instruction has, splits into the fields it gives. -/
def Obligations.SpecWordsDecode : Prop :=
  decode 0xABCD#16 = .rejected .unsupported ∧
  fieldsOf 0xABCD#16 = { op := 0xA#4, x := 0xB#4, y := 0xC#4, kk := 0xCD#8, n := 0xD#4, nnn := 0xBCD#12 } ∧
  decode 0x0000#16 = .instr .halt ∧ decode 0x0001#16 = .rejected .unsupported ∧
  decode 0x00E0#16 = .instr .clear ∧ decode 0x00E1#16 = .rejected .unsupported ∧
  decode 0x00EE#16 = .instr .ret ∧ decode 0x00EF#16 = .rejected .unsupported ∧
  decode 0x0123#16 = .rejected .unsupported ∧ decode 0x0FFF#16 = .rejected .unsupported ∧
  decode 0x1000#16 = .instr (.jump 0x000#12) ∧ decode 0x1FFF#16 = .instr (.jump 0xFFF#12) ∧
  decode 0x2ABC#16 = .instr (.call 0xABC#12) ∧ decode 0x3A5C#16 = .instr (.skipEqImm 0xA#4 0x5C#8) ∧
  decode 0x4F00#16 = .instr (.skipNeImm 0xF#4 0x00#8) ∧ decode 0x5120#16 = .instr (.skipEqReg 0x1#4 0x2#4) ∧
  decode 0x5121#16 = .rejected .unsupported ∧ decode 0x5FFF#16 = .rejected .unsupported ∧
  decode 0x6BCD#16 = .instr (.loadImm 0xB#4 0xCD#8) ∧ decode 0x7EFF#16 = .instr (.addImm 0xE#4 0xFF#8) ∧
  decode 0x8AB0#16 = .instr (.loadReg 0xA#4 0xB#4) ∧ decode 0x8AB1#16 = .instr (.orReg 0xA#4 0xB#4) ∧
  decode 0x8AB2#16 = .instr (.andReg 0xA#4 0xB#4) ∧ decode 0x8AB3#16 = .instr (.xorReg 0xA#4 0xB#4) ∧
  decode 0x8AB4#16 = .instr (.addReg 0xA#4 0xB#4) ∧ decode 0x8AB5#16 = .instr (.subReg 0xA#4 0xB#4) ∧
  decode 0x8AB6#16 = .rejected .unsupported ∧ decode 0x8AB7#16 = .rejected .unsupported ∧
  decode 0x8ABE#16 = .rejected .unsupported ∧ decode 0x8ABF#16 = .rejected .unsupported ∧
  decode 0x9120#16 = .rejected .unsupported ∧ decode 0xA123#16 = .rejected .unsupported ∧
  decode 0xD123#16 = .rejected .unsupported ∧ decode 0xF165#16 = .rejected .unsupported ∧
  decode 0xFFFF#16 = .rejected .unsupported

/-- R71: every field of a word is the named bits of it, as numbers, and the fields overlap as `kk = {y, n}`, `nnn = {x, kk}`. -/
def Obligations.FieldsAreTheirBits : Prop :=
  ∀ w : Word,
    (fieldsOf w).op.toNat = w.toNat / 2 ^ 12 ∧
    (fieldsOf w).x.toNat = w.toNat / 2 ^ 8 % 2 ^ 4 ∧
    (fieldsOf w).y.toNat = w.toNat / 2 ^ 4 % 2 ^ 4 ∧
    (fieldsOf w).kk.toNat = w.toNat % 2 ^ 8 ∧
    (fieldsOf w).n.toNat = w.toNat % 2 ^ 4 ∧
    (fieldsOf w).nnn.toNat = w.toNat % 2 ^ 12 ∧
    (fieldsOf w).kk = (fieldsOf w).y ++ (fieldsOf w).n ∧
    (fieldsOf w).nnn = (fieldsOf w).x ++ (fieldsOf w).kk

/-- spec/30_encoding.md section 2: for every instruction and every operand value, the decoder reads back the instruction from
its word, and from its two bytes in memory order at the front of any bytes. -/
def Obligations.DecodeOfEncodeIsTheInstruction : Prop :=
  ∀ i : Instr, decode (encode i) = .instr i ∧
    ∀ rest : List Byte, decodeBytes (encodeBytes i ++ rest) = (.instr i, rest)

/-- spec/30_encoding.md section 2 (no don't-care bits): a word that decodes to an instruction is that instruction's one word. -/
def Obligations.EncodeOfDecodeIsTheWord : Prop :=
  ∀ (w : Word) (i : Instr), decode w = .instr i → encode i = w

/-- R74: a word is the instruction of a row exactly when `w & mask == match`, with its operands from the fields of the word,
and it is none exactly when it matches no row. -/
def Obligations.DecodeFollowsTheOpcodeMap : Prop :=
  ∀ w : Word,
    (w &&& 0xFFFF#16 = 0x0000#16 ↔ decode w = .instr .halt) ∧
    (w &&& 0xFFFF#16 = 0x00E0#16 ↔ decode w = .instr .clear) ∧
    (w &&& 0xFFFF#16 = 0x00EE#16 ↔ decode w = .instr .ret) ∧
    (w &&& 0xF000#16 = 0x1000#16 ↔ decode w = .instr (.jump (w.extractLsb' 0 12))) ∧
    (w &&& 0xF000#16 = 0x2000#16 ↔ decode w = .instr (.call (w.extractLsb' 0 12))) ∧
    (w &&& 0xF000#16 = 0x3000#16 ↔ decode w = .instr (.skipEqImm (w.extractLsb' 8 4) (w.extractLsb' 0 8))) ∧
    (w &&& 0xF000#16 = 0x4000#16 ↔ decode w = .instr (.skipNeImm (w.extractLsb' 8 4) (w.extractLsb' 0 8))) ∧
    (w &&& 0xF00F#16 = 0x5000#16 ↔ decode w = .instr (.skipEqReg (w.extractLsb' 8 4) (w.extractLsb' 4 4))) ∧
    (w &&& 0xF000#16 = 0x6000#16 ↔ decode w = .instr (.loadImm (w.extractLsb' 8 4) (w.extractLsb' 0 8))) ∧
    (w &&& 0xF000#16 = 0x7000#16 ↔ decode w = .instr (.addImm (w.extractLsb' 8 4) (w.extractLsb' 0 8))) ∧
    (w &&& 0xF00F#16 = 0x8000#16 ↔ decode w = .instr (.loadReg (w.extractLsb' 8 4) (w.extractLsb' 4 4))) ∧
    (w &&& 0xF00F#16 = 0x8001#16 ↔ decode w = .instr (.orReg (w.extractLsb' 8 4) (w.extractLsb' 4 4))) ∧
    (w &&& 0xF00F#16 = 0x8002#16 ↔ decode w = .instr (.andReg (w.extractLsb' 8 4) (w.extractLsb' 4 4))) ∧
    (w &&& 0xF00F#16 = 0x8003#16 ↔ decode w = .instr (.xorReg (w.extractLsb' 8 4) (w.extractLsb' 4 4))) ∧
    (w &&& 0xF00F#16 = 0x8004#16 ↔ decode w = .instr (.addReg (w.extractLsb' 8 4) (w.extractLsb' 4 4))) ∧
    (w &&& 0xF00F#16 = 0x8005#16 ↔ decode w = .instr (.subReg (w.extractLsb' 8 4) (w.extractLsb' 4 4))) ∧
    ((∀ r ∈ opcodeTable, r.matchesWord w = false) ↔ decode w = .rejected .unsupported)

/-- spec/30_encoding.md section 2 (the order of tests changes no result): no word matches two rows of the table. -/
def Obligations.OpcodeRowsDoNotOverlap : Prop :=
  ∀ w : Word, opcodeTable.Pairwise fun r q => ¬ (r.matchesWord w = true ∧ q.matchesWord w = true)

/-- spec/30_encoding.md section 3: the unsupported words are exactly the four listed ranges. -/
def Obligations.UnsupportedWordsAreTheListedRanges : Prop :=
  ∀ w : Word, decode w = .rejected .unsupported ↔
    (w.toNat ≤ 0x0FFF ∧ w ≠ 0x0000#16 ∧ w ≠ 0x00E0#16 ∧ w ≠ 0x00EE#16) ∨
    (0x5000 ≤ w.toNat ∧ w.toNat ≤ 0x5FFF ∧ w.toNat % 16 ≠ 0) ∨
    (0x8000 ≤ w.toNat ∧ w.toNat ≤ 0x8FFF ∧ 6 ≤ w.toNat % 16) ∨
    0x9000 ≤ w.toNat

/-- spec/30_encoding.md section 4 (R82 is the spec's own decision D14; log 24): the written form of every instruction is
well-formed and names that instruction. -/
def Obligations.WrittenFormNamesTheInstruction : Prop :=
  ∀ i : Instr, i.wellFormed = true ∧ assemble i.toAsm = some i

/-! ## Fetch and step -/

/-- R52: where both bytes exist, the fetched word is the byte at `pc` times 256 plus the byte at `pc + 1`; and a word the host
writes high byte first at `p` and `p + 1` is the word fetched at `p`. The second part starts from a memory in canonical form. -/
def Obligations.FetchIsBigEndian : Prop :=
  (∀ s : State, s.pc.toNat ≤ 0xFFE →
    ∃ w b0 b1, memRead s.pc.toNat s = some b0 ∧ memRead (s.pc.toNat + 1) s = some b1 ∧
      fetchWord s = some w ∧ w.toNat = b0.toNat * 256 + b1.toNat) ∧
  (∀ (s : State) (w : Word) (p q : Addr), s.mem.wf = true → s.status = .idle → s.pc = zext16 p → q.toNat = p.toNat + 1 →
    ∃ t, hostMoves [.loadByte p (highByte w), .loadByte q (lowByte w)] s = some t ∧ fetchWord t = some w)

/-- spec/60_exceptions.md FETCH_OUT_OF_RANGE (R203 is the spec's decision D3; log 5): a step that begins with `pc > 0xFFE`
enters FAULT with cause 4, `fault_pc = pc`, `fault_opcode = 0x0000`, `pc` not advanced, and changes nothing else. -/
def Obligations.FetchOutOfRangeFaults : Prop :=
  ∀ s : State, s.status = .running → 0xFFE < s.pc.toNat →
    ∃ t, step s = .next t ∧ t.status = .fault ∧ observeCause t = 4#3 ∧ t.faultPc = s.pc ∧ t.faultOpcode = 0x0000#16 ∧
      t.pc = s.pc ∧ RegsKeptBut [] s t ∧ StackKept s t ∧ MemoryKept s t

/-- R103: in RUNNING, a step whose fetched word decodes to an instruction is that instruction's meaning in the state with
`pc = A + 2`, and an UNSUPPORTED word raises UNSUPPORTED_OPCODE in that state. -/
def Obligations.StepRunsTheDecodedInstruction : Prop :=
  ∀ (s : State) (w : Word), s.status = .running → fetchWord s = some w →
    (∀ i, decode w = .instr i → step s = exec i (s.setPc (s.pc + 2#16))) ∧
    (decode w = .rejected .unsupported →
      ∃ t, step s = .next t ∧ t.status = .fault ∧ t.cause = .unsupportedOpcode ∧ t.pc = s.pc + 2#16)

/-- spec/40_engine.md section 1 (HALTED and FAULT are final: the spec's decision D9; that a step in IDLE, HALTED or FAULT
answers the same state is the model's reading, log 1): where the run has ended, or has not started, no number of steps changes
anything. -/
def Obligations.NothingStepsOutsideRunning : Prop :=
  ∀ (k : Nat) (s : State), s.Ended ∨ s.status = .idle → core.run k s = .next s

/-- spec/40_engine.md section 2 (each step in RUNNING ends in RUNNING, in HALTED, or in FAULT with a cause: the spec's
derivation R104; that a step in IDLE, HALTED or FAULT answers the same state is the model's reading, DEDUCED, log 1): every step
of every state answers a next state; one from RUNNING ends in RUNNING, in HALTED or in FAULT with a cause; one from IDLE, HALTED
or FAULT answers the same state; so none goes to IDLE from another status. -/
def Obligations.StepAlwaysAnswersANextState : Prop :=
  ∀ s : State, ∃ t, step s = .next t ∧
    (s.status = .running → t.status = .running ∨ t.status = .halted ∨ (t.status = .fault ∧ t.cause ≠ .none)) ∧
    (s.status ≠ .running → t = s) ∧
    (s.status ≠ .idle → t.status ≠ .idle)

/-- R30: the value of `pc` after the step, for every instruction and every fatal condition. -/
def Obligations.NextAddressOfEveryStep : Prop :=
  ∀ s : State, s.status = .running →
    (∀ w, fetchWord s = some w → ∃ t, step s = .next t ∧ t.pc = nextAddress s (decode w)) ∧
    (0xFFE < s.pc.toNat → ∃ t, step s = .next t ∧ t.pc = s.pc)

/-- spec/40_engine.md section 3 and spec/60_exceptions.md section 3 (the spec's derivation R210, its decision D3): a step in
RUNNING halts exactly on HALT, faults exactly on one of the four conditions, each with its own cause, and otherwise stays in
RUNNING, which is exactly where it fetches an instruction that is no HALT, no RETURN of an empty stack and no CALL on a full
one. -/
def Obligations.RunEndsExactlyOnHaltOrAFatalCondition : Prop :=
  ∀ s t : State, s.status = .running → step s = .next t →
    (t.status = .halted ↔ fetchWord s = some 0x0000#16) ∧
    (t.status = .fault ∧ t.cause = .fetchOutOfRange ↔ 0xFFE < s.pc.toNat) ∧
    (t.status = .fault ∧ t.cause = .unsupportedOpcode ↔
      ∃ w, fetchWord s = some w ∧ decode w = .rejected .unsupported) ∧
    (t.status = .fault ∧ t.cause = .stackUnderflow ↔ fetchWord s = some 0x00EE#16 ∧ s.sp.val = 0) ∧
    (t.status = .fault ∧ t.cause = .stackOverflow ↔
      (∃ nnn : Addr, fetchWord s = some (0x2#4 ++ nnn)) ∧ s.sp.val = 16) ∧
    (t.status = .fault → t.cause ≠ .none) ∧
    (t.status = .running ↔ ∃ w i, fetchWord s = some w ∧ decode w = .instr i ∧ i ≠ .halt ∧
      (i = .ret → s.sp.val ≠ 0) ∧ (∀ nnn, i = .call nnn → s.sp.val ≠ 16)) ∧
    t.status ≠ .idle

/-! ## The system instructions -/

/-- R120 HALT: the word 0x0000 is HALT; HALT enters HALTED, leaves `pc` at `A + 2` and changes nothing else; and a step that
fetches two zero bytes ends there. -/
def Obligations.HaltEndsTheRun : Prop :=
  decode 0x0000#16 = .instr .halt ∧
  (∀ s : State, ∃ t, exec .halt s = .next t ∧ t.status = .halted ∧ t.pc = s.pc ∧
    RegsKeptBut [] s t ∧ StackKept s t ∧ RecordKept s t ∧ MemoryKept s t) ∧
  (∀ s : State, s.status = .running → s.pc.toNat ≤ 0xFFE →
    memRead s.pc.toNat s = some 0x00#8 → memRead (s.pc.toNat + 1) s = some 0x00#8 →
    ∃ t, step s = .next t ∧ t.status = .halted ∧ t.pc = s.pc + 2#16)

/-- R121 CLEAR: the word 0x00E0 is CLEAR, its execution changes nothing at all, and the only effect of its step is the fetch's
`pc <- A + 2`. -/
def Obligations.ClearChangesNothing : Prop :=
  decode 0x00E0#16 = .instr .clear ∧
  (∀ s : State, exec .clear s = .next s) ∧
  (∀ s : State, s.status = .running → fetchWord s = some 0x00E0#16 → step s = .next (s.setPc (s.pc + 2#16)))

/-! ## Control transfer -/

/-- spec/42_flow.md RETURN (that the popped slot keeps its value is the spec's decision D12; log 10): with `sp > 0`, `sp` falls
by one and `pc` takes the slot at the new `sp`; with `sp = 0`, STACK_UNDERFLOW with `pc` and `sp` as they were; every slot,
every register and all of memory are unchanged. -/
def Obligations.ReturnPopsThePcOrUnderflows : Prop :=
  decode 0x00EE#16 = .instr .ret ∧
  ∀ s : State, ∃ t, exec .ret s = .next t ∧
    (0 < s.sp.val →
      t.sp.val = s.sp.val - 1 ∧ (∀ k : Fin 16, k.val = s.sp.val - 1 → t.pc = s.slot k) ∧
      t.status = s.status ∧ RecordKept s t) ∧
    (s.sp.val = 0 →
      t.status = .fault ∧ t.cause = .stackUnderflow ∧ t.pc = s.pc ∧ t.sp = s.sp) ∧
    (∀ k, t.slot k = s.slot k) ∧ RegsKeptBut [] s t ∧ MemoryKept s t

/-- R131 JUMP: the word 0x1nnn is JUMP nnn; `pc` takes `nnn` zero-extended, and nothing else changes. -/
def Obligations.JumpLoadsItsTarget : Prop :=
  ∀ (nnn : Addr) (s : State),
    decode (0x1#4 ++ nnn) = .instr (.jump nnn) ∧
    ∃ t, exec (.jump nnn) s = .next t ∧ t.pc.toNat = nnn.toNat ∧ OnlyPcMayChange s t

/-- R132 CALL: the word 0x2nnn is CALL nnn; with `sp < 16` the slot `S[sp]` takes `pc`, `sp` rises by one and `pc` takes `nnn`;
with `sp = 16`, STACK_OVERFLOW with `pc`, `sp` and the stack as they were; no register and no byte of memory changes. -/
def Obligations.CallPushesThePcOrOverflows : Prop :=
  ∀ (nnn : Addr) (s : State),
    decode (0x2#4 ++ nnn) = .instr (.call nnn) ∧
    ∃ t, exec (.call nnn) s = .next t ∧
      (s.sp.val < 16 →
        t.sp.val = s.sp.val + 1 ∧ t.pc.toNat = nnn.toNat ∧
        (∀ k : Fin 16, t.slot k = if k.val = s.sp.val then s.pc else s.slot k) ∧
        t.status = s.status ∧ RecordKept s t) ∧
      (s.sp.val = 16 →
        t.status = .fault ∧ t.cause = .stackOverflow ∧ t.pc = s.pc ∧ StackKept s t) ∧
      RegsKeptBut [] s t ∧ MemoryKept s t

/-- spec/42_flow.md, CALL then RETURN (the spec's derivation R133): a RETURN in any state with the stack a CALL left restores
`pc` to the address the CALL pushed and `sp` to its value before the CALL. -/
def Obligations.CallThenReturnComesBack : Prop :=
  ∀ (nnn : Addr) (s u : State), s.sp.val < 16 →
    ∃ t, exec (.call nnn) s = .next t ∧
      (u.sp = t.sp → u.stack = t.stack → ∃ r, exec .ret u = .next r ∧ r.pc = s.pc ∧ r.sp = s.sp)

/-- spec/40_engine.md section 3 (a run may be infinite): where the word at `pc` is a JUMP to `pc` itself, every number of steps
ends in the same RUNNING state. -/
def Obligations.JumpToItselfRunsForever : Prop :=
  ∀ (k : Nat) (s : State) (nnn : Addr), s.status = .running → fetchWord s = some (0x1#4 ++ nnn) → s.pc.toNat = nnn.toNat →
    core.run k s = .next s

/-! ## Conditional skips -/

/-- R150 SKIP-IF-EQUAL-IMM: `pc` advances by a further 2 exactly when `V[x] = kk`, and nothing else changes. -/
def Obligations.SkipIfEqualImm : Prop :=
  ∀ (x : Reg) (kk : Byte) (s : State),
    decode (0x3#4 ++ x ++ kk) = .instr (.skipEqImm x kk) ∧
    ∃ t, exec (.skipEqImm x kk) s = .next t ∧
      t.pc = (if s.readV x = kk then s.pc + 2#16 else s.pc) ∧ OnlyPcMayChange s t

/-- spec/43_skip.md SKIP-IF-NOT-EQUAL-IMM (that exactly one of it and SKIP-IF-EQUAL-IMM skips, for the same operands and
registers, is the spec's derivation from R150 and R151): `pc` advances by a further 2 exactly when `V[x] ≠ kk`, exactly one of
the two skips, and nothing else changes. -/
def Obligations.SkipIfNotEqualImm : Prop :=
  ∀ (x : Reg) (kk : Byte) (s : State),
    decode (0x4#4 ++ x ++ kk) = .instr (.skipNeImm x kk) ∧
    ∃ t, exec (.skipNeImm x kk) s = .next t ∧
      t.pc = (if s.readV x ≠ kk then s.pc + 2#16 else s.pc) ∧ OnlyPcMayChange s t ∧
      ∃ u, exec (.skipEqImm x kk) s = .next u ∧ (t.pc = s.pc + 2#16 ↔ u.pc = s.pc)

/-- R152 SKIP-IF-EQUAL-REG: `pc` advances by a further 2 exactly when the values of `V[x]` and `V[y]` are equal; a low nibble
other than 0 is UNSUPPORTED; nothing else changes. -/
def Obligations.SkipIfEqualReg : Prop :=
  ∀ (x y : Reg) (s : State),
    decode (0x5#4 ++ x ++ y ++ 0x0#4) = .instr (.skipEqReg x y) ∧
    (∀ n : BitVec 4, n ≠ 0x0#4 → decode (0x5#4 ++ x ++ y ++ n) = .rejected .unsupported) ∧
    ∃ t, exec (.skipEqReg x y) s = .next t ∧
      t.pc = (if s.readV x = s.readV y then s.pc + 2#16 else s.pc) ∧ OnlyPcMayChange s t

/-! ## Immediate load and add -/

/-- R160 LOAD-IMM: `V[x]` takes `kk`, `VF` included where x = 0xF; no other register and nothing else changes. -/
def Obligations.LoadImmWritesItsByte : Prop :=
  ∀ (x : Reg) (kk : Byte) (s : State),
    decode (0x6#4 ++ x ++ kk) = .instr (.loadImm x kk) ∧
    ∃ t, exec (.loadImm x kk) s = .next t ∧ t.readV x = kk ∧ RegsKeptBut [x] s t ∧ OnlyRegsMayChange s t

/-- R161 ADD-IMM: `V[x]` takes the sum mod 256; no flag, so `VF` is kept where x is not 0xF; nothing else changes. -/
def Obligations.AddImmWrapsWithoutFlag : Prop :=
  ∀ (x : Reg) (kk : Byte) (s : State),
    decode (0x7#4 ++ x ++ kk) = .instr (.addImm x kk) ∧
    ∃ t, exec (.addImm x kk) s = .next t ∧
      (t.readV x).toNat = ((s.readV x).toNat + kk.toNat) % 256 ∧ RegsKeptBut [x] s t ∧ OnlyRegsMayChange s t

/-! ## The register ALU family -/

/-- R171 LOAD-REG: `V[x]` takes the value of `V[y]`; nothing else changes. -/
def Obligations.LoadRegCopies : Prop :=
  ∀ (x y : Reg) (s : State),
    decode (0x8#4 ++ x ++ y ++ 0x0#4) = .instr (.loadReg x y) ∧
    ∃ t, exec (.loadReg x y) s = .next t ∧ t.readV x = s.readV y ∧ RegsKeptBut [x] s t ∧ OnlyRegsMayChange s t

/-- R172 OR: each bit of `V[x]` becomes the OR of the two operands' bits; nothing else changes. -/
def Obligations.OrWritesBitwiseOr : Prop :=
  ∀ (x y : Reg) (s : State),
    decode (0x8#4 ++ x ++ y ++ 0x1#4) = .instr (.orReg x y) ∧
    ∃ t, exec (.orReg x y) s = .next t ∧
      (∀ k < 8, (t.readV x).getLsbD k = ((s.readV x).getLsbD k || (s.readV y).getLsbD k)) ∧
      RegsKeptBut [x] s t ∧ OnlyRegsMayChange s t

/-- R173 AND: each bit of `V[x]` becomes the AND of the two operands' bits; nothing else changes. -/
def Obligations.AndWritesBitwiseAnd : Prop :=
  ∀ (x y : Reg) (s : State),
    decode (0x8#4 ++ x ++ y ++ 0x2#4) = .instr (.andReg x y) ∧
    ∃ t, exec (.andReg x y) s = .next t ∧
      (∀ k < 8, (t.readV x).getLsbD k = ((s.readV x).getLsbD k && (s.readV y).getLsbD k)) ∧
      RegsKeptBut [x] s t ∧ OnlyRegsMayChange s t

/-- R174 XOR: each bit of `V[x]` becomes the XOR of the two operands' bits; nothing else changes. -/
def Obligations.XorWritesBitwiseXor : Prop :=
  ∀ (x y : Reg) (s : State),
    decode (0x8#4 ++ x ++ y ++ 0x3#4) = .instr (.xorReg x y) ∧
    ∃ t, exec (.xorReg x y) s = .next t ∧
      (∀ k < 8, (t.readV x).getLsbD k = ((s.readV x).getLsbD k ^^ (s.readV y).getLsbD k)) ∧
      RegsKeptBut [x] s t ∧ OnlyRegsMayChange s t

/-- R175 ADD-REG: `V[x]` takes the sum mod 256, then `VF` the carry, so with x = 0xF the carry remains and the sum is lost;
no other register and nothing else changes. -/
def Obligations.AddRegWritesSumThenCarry : Prop :=
  ∀ (x y : Reg) (s : State),
    decode (0x8#4 ++ x ++ y ++ 0x4#4) = .instr (.addReg x y) ∧
    ∃ t, exec (.addReg x y) s = .next t ∧
      (x ≠ 0xF#4 → (t.readV x).toNat = ((s.readV x).toNat + (s.readV y).toNat) % 256) ∧
      (t.readV 0xF#4).toNat = (if (s.readV x).toNat + (s.readV y).toNat > 255 then 1 else 0) ∧
      RegsKeptBut [x, 0xF#4] s t ∧ OnlyRegsMayChange s t

/-- spec/45_alu.md SUB-REG (operands taken before the write of `VF` where x or y is 0xF: the spec's decision D5; log 7): `VF`
takes whether `V[x] > V[y]`, then `V[x]` the difference mod 256, so with x = 0xF the difference remains; no other register and
nothing else changes. -/
def Obligations.SubRegWritesFlagThenDifference : Prop :=
  ∀ (x y : Reg) (s : State),
    decode (0x8#4 ++ x ++ y ++ 0x5#4) = .instr (.subReg x y) ∧
    ∃ t, exec (.subReg x y) s = .next t ∧
      ((t.readV x).toNat : Int) = (((s.readV x).toNat : Int) - ((s.readV y).toNat : Int)) % 256 ∧
      (x ≠ 0xF#4 → (t.readV 0xF#4).toNat = (if (s.readV x).toNat > (s.readV y).toNat then 1 else 0)) ∧
      RegsKeptBut [x, 0xF#4] s t ∧ OnlyRegsMayChange s t

/-! ## Frames over all instructions -/

/-- spec/10_state.md section 2 (the table of R22 is the spec's derivation): an instruction changes no register outside the
table's "writes" column. -/
def Obligations.OnlyListedRegistersAreWritten : Prop :=
  ∀ (i : Instr) (s t : State), exec i s = .next t → RegsKeptBut (regsWritten i) s t

/-- spec/10_state.md section 2 (the table of R22 is the spec's derivation): the value of a register outside the table's "reads"
column reaches nothing, so changing it beforehand changes the outcome in that register alone, and not even there where the
instruction writes it. -/
def Obligations.UnreadRegistersReachNothing : Prop :=
  ∀ (i : Instr) (s : State) (r : Reg) (b : Byte), r ∉ regsRead i →
    ∃ t, exec i s = .next t ∧
      exec i (s.writeV r b) = .next (if r ∈ regsWritten i then t else t.writeV r b)

/-- R25: outside ADD-REG and SUB-REG, `VF` changes only as the destination an instruction names; ADD-REG writes the carry and
SUB-REG the comparison there; and with x = 0xF every other writing instruction writes its result to `VF`. -/
def Obligations.VfIsWrittenByTwoInstructionsOrAsDestination : Prop :=
  (∀ (i : Instr) (s t : State), exec i s = .next t → t.readV 0xF#4 ≠ s.readV 0xF#4 →
    (∃ x y, i = .addReg x y) ∨ (∃ x y, i = .subReg x y) ∨ destReg i = some 0xF#4) ∧
  (∀ (x y : Reg) (s : State), ∃ t, exec (.addReg x y) s = .next t ∧
    (t.readV 0xF#4).toNat = (if (s.readV x).toNat + (s.readV y).toNat > 255 then 1 else 0)) ∧
  (∀ (x y : Reg) (s : State), x ≠ 0xF#4 → ∃ t, exec (.subReg x y) s = .next t ∧
    (t.readV 0xF#4).toNat = (if (s.readV x).toNat > (s.readV y).toNat then 1 else 0)) ∧
  (∀ (kk : Byte) (s : State), ∃ t, exec (.loadImm 0xF#4 kk) s = .next t ∧ t.readV 0xF#4 = kk) ∧
  (∀ (kk : Byte) (s : State), ∃ t, exec (.addImm 0xF#4 kk) s = .next t ∧ t.readV 0xF#4 = s.readV 0xF#4 + kk) ∧
  (∀ (y : Reg) (s : State), ∃ t, exec (.loadReg 0xF#4 y) s = .next t ∧ t.readV 0xF#4 = s.readV y) ∧
  (∀ (y : Reg) (s : State), ∃ t, exec (.orReg 0xF#4 y) s = .next t ∧ t.readV 0xF#4 = s.readV 0xF#4 ||| s.readV y) ∧
  (∀ (y : Reg) (s : State), ∃ t, exec (.andReg 0xF#4 y) s = .next t ∧ t.readV 0xF#4 = s.readV 0xF#4 &&& s.readV y) ∧
  (∀ (y : Reg) (s : State), ∃ t, exec (.xorReg 0xF#4 y) s = .next t ∧ t.readV 0xF#4 = s.readV 0xF#4 ^^^ s.readV y)

/-- R56: no instruction reads or writes memory: with any other memory its outcome is the same but for that memory, kept as it
is; in a step only the fetched word matters, and no step writes memory; LOAD-IMM and LOAD-REG take their value from the
instruction and from a register. -/
def Obligations.MemoryIsOnlyReadByFetch : Prop :=
  (∀ (i : Instr) (s : State) (m : Memory), ∃ t, exec i s = .next t ∧ t.mem = s.mem ∧
    exec i { s with mem := m } = .next { t with mem := m }) ∧
  (∀ (s : State) (m : Memory), fetchWord { s with mem := m } = fetchWord s → ∃ t, step s = .next t ∧ t.mem = s.mem ∧
    step { s with mem := m } = .next { t with mem := m }) ∧
  (∀ (x : Reg) (kk : Byte) (s : State), ∃ t, exec (.loadImm x kk) s = .next t ∧ t.readV x = kk) ∧
  (∀ (x y : Reg) (s : State), ∃ t, exec (.loadReg x y) s = .next t ∧ t.readV x = s.readV y)

/-- spec/20_memory.md section 5 (the spec's derivations R60 and R62): memory after any number of steps is memory at launch, so
every fetch returns the launch state's bytes. -/
def Obligations.MemoryDuringARunIsMemoryAtLaunch : Prop :=
  ∀ (k : Nat) (s : State), ∃ t : State, core.run k s = .next t ∧ MemoryKept s t ∧
    fetchWord t = fetchWord (s.setPc t.pc)

/-- spec/10_state.md section 8 (the spec's derivation R40): for every instruction but CALL and RETURN the stack and `sp` reach
nothing and are kept. -/
def Obligations.StackIsSeenOnlyByCallAndReturn : Prop :=
  ∀ (i : Instr) (s : State) (st : Vector Word 16) (p : Fin 17), i ≠ .ret → (∀ nnn, i ≠ .call nnn) →
    ∃ t, exec i s = .next t ∧ StackKept s t ∧
      exec i { s with stack := st, sp := p } = .next { t with stack := st, sp := p }

/-- spec/10_state.md section 5 (that RETURN clears no slot is the spec's decision D12; log 10): the only write to a slot is
CALL's, to the slot at `sp` of a stack that is not full, and it is the pc. -/
def Obligations.SlotsAreWrittenByCallAlone : Prop :=
  ∀ (i : Instr) (s t : State) (k : Fin 16), exec i s = .next t → t.slot k ≠ s.slot k →
    (∃ nnn, i = .call nnn) ∧ k.val = s.sp.val ∧ t.slot k = s.pc

/-- spec/10_state.md section 7 (`cause`, `fault_pc` and `fault_opcode` are the spec's decision D8): they change only in the step
that enters FAULT, and outside RUNNING no step changes them. -/
def Obligations.FaultRecordIsWrittenOnFaultEntryAlone : Prop :=
  ∀ s t : State, step s = .next t → ¬ RecordKept s t → s.status = .running ∧ t.status = .fault

/-! ## Fatal conditions -/

/-- R201 STACK_UNDERFLOW: a RETURN with `sp = 0` records cause 1, the RETURN's address and the word 0x00EE, and ends the run. -/
def Obligations.StackUnderflowIsRecorded : Prop :=
  ∀ s : State, s.status = .running → fetchWord s = some 0x00EE#16 → s.sp.val = 0 →
    ∃ t, step s = .next t ∧ t.status = .fault ∧ observeCause t = 1#3 ∧ observeFaultPc t = s.pc ∧
      observeFaultOpcode t = 0x00EE#16

/-- spec/60_exceptions.md section 1, UNSUPPORTED_OPCODE (that registers, stack and memory keep their values is the state its
section 2 leaves behind, the spec's decision D7; log 3): a fetched word that is no instruction records cause 3, its address and
itself, and ends the run; no register, slot, `sp` or byte of memory changes. -/
def Obligations.UnsupportedOpcodeIsRecorded : Prop :=
  ∀ (s : State) (w : Word), s.status = .running → fetchWord s = some w → (∀ r ∈ opcodeTable, r.matchesWord w = false) →
    ∃ t, step s = .next t ∧ t.status = .fault ∧ observeCause t = 3#3 ∧ observeFaultPc t = s.pc ∧ observeFaultOpcode t = w ∧
      RegsKeptBut [] s t ∧ StackKept s t ∧ MemoryKept s t

/-- R204 STACK_OVERFLOW: a CALL with `sp = 16` records cause 2, the CALL's address and the CALL word, and ends the run. -/
def Obligations.StackOverflowIsRecorded : Prop :=
  ∀ (s : State) (nnn : Addr), s.status = .running → fetchWord s = some (0x2#4 ++ nnn) → s.sp.val = 16 →
    ∃ t, step s = .next t ∧ t.status = .fault ∧ observeCause t = 2#3 ∧ observeFaultPc t = s.pc ∧
      observeFaultOpcode t = 0x2#4 ++ nnn

/-- spec/60_exceptions.md section 2 (the state a fault leaves is the spec's decision D7; log 3): every step that enters FAULT
records the address it started at and the word fetched there (0x0000 where none was), leaves `pc` at the fetch's value, and
writes no register, slot, `sp` or byte of memory. -/
def Obligations.FaultEntryWritesNothingElse : Prop :=
  ∀ s t : State, s.status = .running → step s = .next t → t.status = .fault →
    t.faultPc = s.pc ∧
    (fetchWord s = none → t.faultOpcode = 0x0000#16 ∧ t.pc = s.pc) ∧
    (∀ w, fetchWord s = some w → t.faultOpcode = w ∧ t.pc = s.pc + 2#16) ∧
    RegsKeptBut [] s t ∧ StackKept s t ∧ MemoryKept s t

/-! ## Reset, host and invariants -/

/-- spec/10_state.md section 1 and spec/70_reset_and_hazards.md section 1 (reset in any state is the spec's decision D11): reset
zeroes every register, byte of memory, slot and record and enters IDLE, whatever the state before. -/
def Obligations.ResetZeroesEverything : Prop :=
  ∀ s : State, ∃ t, hostMove .reset s = some t ∧ t = State.reset ∧
    (∀ r, t.readV r = 0x00#8) ∧ (∀ a, a ≤ 0xFFF → memRead a t = some 0x00#8) ∧ t.pc = 0x0000#16 ∧
    (∀ k, t.slot k = 0x0000#16) ∧ t.sp = 0 ∧ observeStatus t = 0#2 ∧ observeCause t = 0#3 ∧
    observeFaultPc t = 0x0000#16 ∧ observeFaultOpcode t = 0x0000#16

/-- The machine's invariant (memory canonical, `pc` and return addresses in range, fault record in step with FAULT, IDLE
before the first fetch) holds at reset. -/
def Obligations.ResetMeetsTheMachineInvariant : Prop := State.reset.Inv

/-- The invariant is kept by every step from every state that meets it, reached or not. -/
def Obligations.EveryStepKeepsTheMachineInvariant : Prop :=
  ∀ s t : State, s.Inv → step s = .next t → t.Inv

/-- The invariant is kept by every move of the host. -/
def Obligations.EveryHostMoveKeepsTheMachineInvariant : Prop :=
  ∀ (m : HostMove) (s t : State), s.Inv → hostMove m s = some t → t.Inv

/-- spec/10_state.md section 4 (the range is the spec's derivation R29, R31): in every state that steps and host moves reach
from reset, `pc` is at most 0x1002, every return address at most 0x1000, the cause is set exactly in FAULT, and memory is in the model's
canonical form (`s.mem.wf`, log 11). -/
def Obligations.ReachableStatesKeepPcInRange : Prop :=
  ∀ s : State, Reachable s → s.pc.toNat ≤ 0x1002 ∧ (∀ k, (s.slot k).toNat ≤ 0x1000) ∧
    (s.cause ≠ .none ↔ s.status = .fault) ∧ s.mem.wf = true

/-- spec/40_engine.md section 4 (the host's moves are the spec's decisions D10 and D17; log 2): loads and start exist exactly in
IDLE, a load changes the one byte or register alone, start changes the run state alone, and no move but reset touches `pc`,
`sp`, the stack or the fault record. Memory is in canonical form. -/
def Obligations.HostLoadsAndStartsInIdleAlone : Prop :=
  ∀ s : State, s.mem.wf = true →
    (s.status ≠ .idle → ∀ m, m ≠ .reset → hostMove m s = none) ∧
    (s.status = .idle →
      (∀ (a : Addr) (b : Byte), ∃ t, hostMove (.loadByte a b) s = some t ∧
        memRead a.toNat t = some b ∧ (∀ c, c ≠ a.toNat → memRead c t = memRead c s) ∧
        RegsKeptBut [] s t ∧ t.pc = s.pc ∧ StackKept s t ∧ t.status = .idle ∧ RecordKept s t) ∧
      (∀ (r : Reg) (b : Byte), ∃ t, hostMove (.loadReg r b) s = some t ∧
        t.readV r = b ∧ RegsKeptBut [r] s t ∧ OnlyRegsMayChange s t) ∧
      (∃ t, hostMove .start s = some t ∧
        t.status = .running ∧ RegsKeptBut [] s t ∧ t.pc = s.pc ∧ StackKept s t ∧ RecordKept s t ∧ MemoryKept s t))

/-- spec/70_reset_and_hazards.md section 2 (the launch state is the spec's derivation R236): after reset, any host loads, then
start, the state is a launch state. -/
def Obligations.LoadsThenStartGiveALaunchState : Prop :=
  ∀ ms : List HostMove, (∀ m ∈ ms, m ≠ .reset ∧ m ≠ .start) →
    ∃ s, hostMoves (ms ++ [.start]) State.reset = some s ∧ s.Launch

/-- spec/70_reset_and_hazards.md section 2 (registers and memory as the host left them, any values): for any contents of the
registers and of memory there are host loads that launch with exactly them. -/
def Obligations.EveryLaunchContentsCanBeLoaded : Prop :=
  ∀ (rv : Reg → Byte) (mv : Addr → Byte), ∃ (ms : List HostMove) (s : State),
    (∀ m ∈ ms, m ≠ .reset ∧ m ≠ .start) ∧ hostMoves (ms ++ [.start]) State.reset = some s ∧
    (∀ r, s.readV r = rv r) ∧ (∀ a : Addr, memRead a.toNat s = some (mv a)) ∧ s.Launch

/-- spec/40_engine.md section 4 (the ports are the spec's decision D10, the codes and the record its decisions D8 and D9; that
registers are observed in IDLE too and never in RUNNING is the model's reading, DEDUCED, log 23): registers are observed
outside RUNNING alone; the four status outputs are observed in any state, `status` and `cause` by their codes, `fault_pc` and
`fault_opcode` as they are recorded; and the fetch port asks for `pc` in RUNNING alone and only where both bytes exist. -/
def Obligations.ObservationAndFetchPorts : Prop :=
  ∀ s : State,
    (∀ r, observeReg r s = if s.status = .running then none else some (s.readV r)) ∧
    (observeStatus s = 0#2 ↔ s.status = .idle) ∧ (observeStatus s = 1#2 ↔ s.status = .running) ∧
    (observeStatus s = 2#2 ↔ s.status = .halted) ∧ (observeStatus s = 3#2 ↔ s.status = .fault) ∧
    (observeCause s = 0#3 ↔ s.cause = .none) ∧ (observeCause s = 1#3 ↔ s.cause = .stackUnderflow) ∧
    (observeCause s = 2#3 ↔ s.cause = .stackOverflow) ∧ (observeCause s = 3#3 ↔ s.cause = .unsupportedOpcode) ∧
    (observeCause s = 4#3 ↔ s.cause = .fetchOutOfRange) ∧ (observeCause s).toNat ≤ 4 ∧
    observeFaultPc s = s.faultPc ∧ observeFaultOpcode s = s.faultOpcode ∧
    (∀ a, fetchRequest s = some a ↔ s.status = .running ∧ a = s.pc ∧ (fetchWord s).isSome = true)

/-- spec/92_eei_decisions.md D4 and D5 (the parameters a conservative model may set; the stops' names, their order and that they
come in RUNNING alone are the model's choice, log 20): with the spec's own decisions the variant is the machine; with any others
it either does what the machine does or stops, by name, on an odd fetch or on an ADD-REG or SUB-REG that names 0xF, in RUNNING;
and it does stop there: under ODD_FETCH = fault on every fetch at an odd address where both bytes exist, and under
VF_OPERAND = fault on every such ADD-REG or SUB-REG that no odd fetch stops before. -/
def Obligations.ConservativeVariantOnlyStopsMore : Prop :=
  ∀ (p : Config.Params) (s : State),
    stepWith Config.standard s = step s ∧
    (stepWith p s = step s ∨
      (stepWith p s = .fault .oddFetch ∧ p.oddFetch = .fault ∧ s.status = .running ∧ s.pc.toNat % 2 = 1) ∨
      (stepWith p s = .fault .vfOperand ∧ p.vfOperand = .fault ∧ s.status = .running ∧
        ∃ w x y, fetchWord s = some w ∧ (x = 0xF#4 ∨ y = 0xF#4) ∧
          (decode w = .instr (.addReg x y) ∨ decode w = .instr (.subReg x y)))) ∧
    (p.oddFetch = .fault → s.status = .running → s.pc.toNat % 2 = 1 → s.pc.toNat ≤ 0xFFE →
      stepWith p s = .fault .oddFetch) ∧
    (∀ (w : Word) (x y : Reg), p.vfOperand = .fault → s.status = .running →
      ¬ (p.oddFetch = .fault ∧ s.pc.toNat % 2 = 1) → fetchWord s = some w →
      decode w = .instr (.addReg x y) ∨ decode w = .instr (.subReg x y) → x = 0xF#4 ∨ y = 0xF#4 →
      stepWith p s = .fault .vfOperand)

/-- The model's own placing of an instruction (log 2, log 17), big-endian as spec/20_memory.md section 2 says: for every
instruction, the state with its word placed is RUNNING, fetches that word, and its step is the instruction's meaning after
the fetch. Memory is in canonical form. -/
def Obligations.PlacedInstructionIsTheOneThatRuns : Prop :=
  ∀ (s : State) (i : Instr), s.mem.wf = true →
    ∃ u, s.withFetchWord 16 (encode i).toNat = u ∧ u.status = .running ∧ fetchWord u = some (encode i) ∧
      step u = exec i (u.setPc (u.pc + 2#16)) ∧ RegsKeptBut [] s u ∧ StackKept s u ∧ RecordKept s u
end

