-- ==== Sys2Proof/Laws/Encoding.lean ====
section
/-! SUPPORT. The words the encoder builds and the fields the decoder takes out, as numbers, and the masks of the opcode map as
division (spec/30_encoding.md R71, R74): the bridge from bit vectors to omega. -/

namespace Sys2Proof

theorem append_toNat {m n : Nat} (x : BitVec m) (y : BitVec n) : (x ++ y).toNat = x.toNat * 2 ^ n + y.toNat := by
  rw [BitVec.toNat_append, ← Nat.shiftLeft_add_eq_or_of_lt y.isLt, Nat.shiftLeft_eq]

theorem wordOfBytes_toNat (b0 b1 : Byte) : (wordOfBytes b0 b1).toNat = b0.toNat * 256 + b1.toNat := append_toNat b0 b1

theorem wordNNN_toNat (op : BitVec 4) (nnn : Addr) : (wordNNN op nnn).toNat = op.toNat * 4096 + nnn.toNat :=
  append_toNat op nnn

theorem wordXKK_toNat (op : BitVec 4) (x : Reg) (kk : Byte) :
    (wordXKK op x kk).toNat = op.toNat * 4096 + x.toNat * 256 + kk.toNat := by
  have h1 : (wordXKK op x kk).toNat = (op ++ x).toNat * 2 ^ 8 + kk.toNat := append_toNat (op ++ x) kk
  rw [h1, append_toNat]
  omega

theorem wordXYN_toNat (op : BitVec 4) (x y : Reg) (n : BitVec 4) :
    (wordXYN op x y n).toNat = op.toNat * 4096 + x.toNat * 256 + y.toNat * 16 + n.toNat := by
  have h1 : (wordXYN op x y n).toNat = (op ++ x ++ y).toNat * 2 ^ 4 + n.toNat := append_toNat (op ++ x ++ y) n
  rw [h1, append_toNat, append_toNat]
  omega

/-- A field of a word, as a number. -/
theorem field_toNat (w : Word) (start len : Nat) : (w.extractLsb' start len).toNat = w.toNat / 2 ^ start % 2 ^ len := by
  rw [BitVec.extractLsb'_toNat, Nat.shiftRight_eq_div_pow]

theorem highByte_toNat (w : Word) : (highByte w).toNat = w.toNat / 256 := by
  have := w.isLt
  rw [highByte, field_toNat]
  omega

theorem lowByte_toNat (w : Word) : (lowByte w).toNat = w.toNat % 256 := by
  rw [lowByte, field_toNat]
  omega

/-- Splitting a word into its bytes and joining them again gives the word. -/
@[simp] theorem wordOfBytes_high_low (w : Word) : wordOfBytes (highByte w) (lowByte w) = w := by
  apply BitVec.eq_of_toNat_eq
  rw [wordOfBytes_toNat, highByte_toNat, lowByte_toNat]
  omega

/-- The mask 0xF000 keeps the first nibble. -/
theorem and_F000 (w : Word) : w &&& 0xF000#16 = BitVec.ofNat 16 (w.toNat / 2 ^ 12 * 2 ^ 12) := by
  apply BitVec.eq_of_getLsbD_eq
  intro k hk
  simp only [BitVec.getLsbD_and, BitVec.getLsbD_ofNat, Nat.testBit_mul_two_pow, Nat.testBit_div_two_pow]
  interval_cases k <;> simp [BitVec.getLsbD] <;> intro _ <;> decide

/-- The mask 0xF00F keeps the first and the last nibble. -/
theorem and_F00F (w : Word) : w &&& 0xF00F#16 = BitVec.ofNat 16 (w.toNat / 2 ^ 12 * 2 ^ 12 + w.toNat % 2 ^ 4) := by
  have hlow : w.toNat % 2 ^ 4 < 2 ^ 12 := by omega
  apply BitVec.eq_of_getLsbD_eq
  intro k hk
  rw [← Nat.shiftLeft_eq, Nat.shiftLeft_add_eq_or_of_lt hlow]
  simp only [BitVec.getLsbD_and, BitVec.getLsbD_ofNat, Nat.testBit_or, Nat.testBit_shiftLeft, Nat.testBit_div_two_pow,
    Nat.testBit_mod_two_pow]
  interval_cases k <;> simp [BitVec.getLsbD] <;> intro _ <;> decide

/-- The mask 0xFFFF keeps the word. -/
theorem and_FFFF (w : Word) : w &&& 0xFFFF#16 = w := by
  have : (0xFFFF#16 : Word) = BitVec.allOnes 16 := by decide
  rw [this, BitVec.and_allOnes]

end Sys2Proof
end

