-- ==== Sys2Proof/Laws/Memory.lean ====
section
/-! SUPPORT. The laws of memory: a read after a write, the bytes a write leaves alone, and the canonical form it keeps. -/

namespace Sys2Proof.Machine

theorem wfFrom_mono {m : Memory} {low low' : Nat} (h : Memory.wfFrom low m = true) (hle : low' ≤ low) :
    Memory.wfFrom low' m = true := by
  cases m with
  | nil => rfl
  | cons c rest =>
    simp only [Memory.wfFrom, Bool.and_eq_true, decide_eq_true_eq] at h ⊢
    exact ⟨⟨⟨by omega, h.1.1.2⟩, h.1.2⟩, h.2⟩

/-- Below its first possible address a canonical memory reads as unlisted. -/
theorem read_below {m : Memory} {low a : Nat} (h : Memory.wfFrom low m = true) (ha : a < low) :
    m.read a = Memory.unlisted := by
  induction m generalizing low with
  | nil => rfl
  | cons c rest ih =>
    simp only [Memory.wfFrom, Bool.and_eq_true, decide_eq_true_eq] at h
    have hne : c.1 ≠ a := by omega
    simp only [Memory.read, hne, if_false]
    exact ih h.2 (by omega)

theorem read_consCell (a : Nat) (v : Byte) {m : Memory} {low : Nat} (h : Memory.wfFrom low m = true) (ha : a < low) (c : Nat) :
    (Memory.consCell a v m).read c = if c = a then v else m.read c := by
  unfold Memory.consCell
  by_cases hv : v = Memory.unlisted
  · by_cases hc : c = a
    · subst hc; simp [hv, read_below h ha]
    · simp [hv, hc]
  · by_cases hc : c = a
    · subst hc; simp [hv, Memory.read]
    · have hca : ¬ a = c := fun e => hc e.symm
      simp [hv, Memory.read, hc, hca]

theorem wfFrom_consCell {a : Nat} {v : Byte} {m : Memory} {low : Nat} (h : Memory.wfFrom (a + 1) m = true) (ha : low ≤ a)
    (hm : a < Config.memSize) : Memory.wfFrom low (Memory.consCell a v m) = true := by
  unfold Memory.consCell
  by_cases hv : v = Memory.unlisted
  · simpa [hv] using wfFrom_mono h (by omega)
  · simp only [hv, if_false, Memory.wfFrom, Bool.and_eq_true, decide_eq_true_eq]
    exact ⟨⟨⟨ha, hm⟩, by simpa using hv⟩, h⟩

/-- What a write does, all of it: the written address reads the new byte, every other address reads as before. -/
theorem read_write_from {m : Memory} {low : Nat} (h : Memory.wfFrom low m = true) (a : Nat) (v : Byte) (c : Nat) :
    (m.write a v).read c = if c = a then v else m.read c := by
  induction m generalizing low with
  | nil => exact read_consCell a v (low := a + 1) rfl (by omega) c
  | cons d rest ih =>
    simp only [Memory.wfFrom, Bool.and_eq_true, decide_eq_true_eq] at h
    simp only [Memory.write]
    by_cases hlt : a < d.1
    · have hd : Memory.wfFrom d.1 (d :: rest) = true := by
        simp only [Memory.wfFrom, Bool.and_eq_true, decide_eq_true_eq]
        exact ⟨⟨⟨le_refl _, h.1.1.2⟩, h.1.2⟩, h.2⟩
      simpa [hlt] using read_consCell a v hd hlt c
    · by_cases heq : a = d.1
      · rw [if_neg hlt, if_pos heq, read_consCell a v (low := a + 1) (by rw [heq]; exact h.2) (by omega) c]
        by_cases hc : c = a
        · simp [hc]
        · have hdc : ¬ d.1 = c := fun e => hc (by rw [heq, e])
          simp [hc, Memory.read, hdc]
      · simp only [hlt, heq, if_false, Memory.read]
        by_cases hdc : d.1 = c
        · have hca : ¬ c = a := fun e => heq (by rw [← e, hdc])
          simp [hdc, hca]
        · simp only [hdc, if_false]
          exact ih h.2

theorem wfFrom_write {m : Memory} {low a : Nat} {v : Byte} (h : Memory.wfFrom low m = true) (hlow : low ≤ a)
    (ha : a < Config.memSize) : Memory.wfFrom low (m.write a v) = true := by
  induction m generalizing low with
  | nil => exact wfFrom_consCell rfl hlow ha
  | cons d rest ih =>
    simp only [Memory.wfFrom, Bool.and_eq_true, decide_eq_true_eq] at h
    simp only [Memory.write]
    by_cases hlt : a < d.1
    · simp only [hlt, if_true]
      apply wfFrom_consCell _ hlow ha
      simp only [Memory.wfFrom, Bool.and_eq_true, decide_eq_true_eq]
      exact ⟨⟨⟨by omega, h.1.1.2⟩, h.1.2⟩, h.2⟩
    · by_cases heq : a = d.1
      · rw [if_neg hlt, if_pos heq]
        exact wfFrom_consCell (by rw [heq]; exact h.2) hlow ha
      · simp only [hlt, heq, if_false, Memory.wfFrom, Bool.and_eq_true, decide_eq_true_eq]
        exact ⟨⟨⟨h.1.1.1, h.1.1.2⟩, h.1.2⟩, ih h.2 (by omega)⟩

/-- A write inside memory keeps the canonical form. -/
theorem wf_write {m : Memory} (h : m.wf = true) {a : Nat} (ha : a < Config.memSize) (v : Byte) : (m.write a v).wf = true :=
  wfFrom_write h (Nat.zero_le _) ha

theorem read_write {m : Memory} (h : m.wf = true) (a : Nat) (v : Byte) (c : Nat) :
    (m.write a v).read c = if c = a then v else m.read c := read_write_from h a v c

theorem reset_mem_wf : Memory.wf State.reset.mem = true := rfl

end Sys2Proof.Machine
end

