-- ==== Sys2Proof/Laws/State.lean ====
section
/-! SUPPORT. One lemma per field per update of the state, so that no proof unfolds a record update. -/

namespace Sys2Proof.Machine

/-! ### writeV -/

@[simp] theorem writeV_v (s : State) (r : Reg) (b : Byte) : (s.writeV r b).v = s.v.set r.toNat b r.isLt := rfl
@[simp] theorem writeV_mem (s : State) (r : Reg) (b : Byte) : (s.writeV r b).mem = s.mem := rfl
@[simp] theorem writeV_pc (s : State) (r : Reg) (b : Byte) : (s.writeV r b).pc = s.pc := rfl
@[simp] theorem writeV_stack (s : State) (r : Reg) (b : Byte) : (s.writeV r b).stack = s.stack := rfl
@[simp] theorem writeV_sp (s : State) (r : Reg) (b : Byte) : (s.writeV r b).sp = s.sp := rfl
@[simp] theorem writeV_status (s : State) (r : Reg) (b : Byte) : (s.writeV r b).status = s.status := rfl
@[simp] theorem writeV_cause (s : State) (r : Reg) (b : Byte) : (s.writeV r b).cause = s.cause := rfl
@[simp] theorem writeV_faultPc (s : State) (r : Reg) (b : Byte) : (s.writeV r b).faultPc = s.faultPc := rfl
@[simp] theorem writeV_faultOpcode (s : State) (r : Reg) (b : Byte) : (s.writeV r b).faultOpcode = s.faultOpcode := rfl
@[simp] theorem writeV_slot (s : State) (r : Reg) (b : Byte) (k : Fin 16) : (s.writeV r b).slot k = s.slot k := rfl
@[simp] theorem writeV_memRead (s : State) (r : Reg) (b : Byte) (q : Nat) : memRead q (s.writeV r b) = memRead q s := rfl

/-! ### setPc -/

@[simp] theorem setPc_v (s : State) (t : Word) : (s.setPc t).v = s.v := rfl
@[simp] theorem setPc_mem (s : State) (t : Word) : (s.setPc t).mem = s.mem := rfl
@[simp] theorem setPc_pc (s : State) (t : Word) : (s.setPc t).pc = t := rfl
@[simp] theorem setPc_stack (s : State) (t : Word) : (s.setPc t).stack = s.stack := rfl
@[simp] theorem setPc_sp (s : State) (t : Word) : (s.setPc t).sp = s.sp := rfl
@[simp] theorem setPc_status (s : State) (t : Word) : (s.setPc t).status = s.status := rfl
@[simp] theorem setPc_cause (s : State) (t : Word) : (s.setPc t).cause = s.cause := rfl
@[simp] theorem setPc_faultPc (s : State) (t : Word) : (s.setPc t).faultPc = s.faultPc := rfl
@[simp] theorem setPc_faultOpcode (s : State) (t : Word) : (s.setPc t).faultOpcode = s.faultOpcode := rfl
@[simp] theorem setPc_readV (s : State) (t : Word) (q : Reg) : (s.setPc t).readV q = s.readV q := rfl
@[simp] theorem setPc_slot (s : State) (t : Word) (k : Fin 16) : (s.setPc t).slot k = s.slot k := rfl
@[simp] theorem setPc_memRead (s : State) (t : Word) (q : Nat) : memRead q (s.setPc t) = memRead q s := rfl

/-! ### setStatus -/

@[simp] theorem setStatus_v (s : State) (st : Status) : (s.setStatus st).v = s.v := rfl
@[simp] theorem setStatus_mem (s : State) (st : Status) : (s.setStatus st).mem = s.mem := rfl
@[simp] theorem setStatus_pc (s : State) (st : Status) : (s.setStatus st).pc = s.pc := rfl
@[simp] theorem setStatus_stack (s : State) (st : Status) : (s.setStatus st).stack = s.stack := rfl
@[simp] theorem setStatus_sp (s : State) (st : Status) : (s.setStatus st).sp = s.sp := rfl
@[simp] theorem setStatus_status (s : State) (st : Status) : (s.setStatus st).status = st := rfl
@[simp] theorem setStatus_cause (s : State) (st : Status) : (s.setStatus st).cause = s.cause := rfl
@[simp] theorem setStatus_faultPc (s : State) (st : Status) : (s.setStatus st).faultPc = s.faultPc := rfl
@[simp] theorem setStatus_faultOpcode (s : State) (st : Status) : (s.setStatus st).faultOpcode = s.faultOpcode := rfl
@[simp] theorem setStatus_readV (s : State) (st : Status) (q : Reg) : (s.setStatus st).readV q = s.readV q := rfl
@[simp] theorem setStatus_slot (s : State) (st : Status) (k : Fin 16) : (s.setStatus st).slot k = s.slot k := rfl
@[simp] theorem setStatus_memRead (s : State) (st : Status) (q : Nat) : memRead q (s.setStatus st) = memRead q s := rfl

/-! ### advance -/

@[simp] theorem advance_v (s : State) : s.advance.v = s.v := rfl
@[simp] theorem advance_mem (s : State) : s.advance.mem = s.mem := rfl
@[simp] theorem advance_pc (s : State) : s.advance.pc = s.pc + 2#16 := rfl
@[simp] theorem advance_stack (s : State) : s.advance.stack = s.stack := rfl
@[simp] theorem advance_sp (s : State) : s.advance.sp = s.sp := rfl
@[simp] theorem advance_status (s : State) : s.advance.status = s.status := rfl
@[simp] theorem advance_cause (s : State) : s.advance.cause = s.cause := rfl
@[simp] theorem advance_faultPc (s : State) : s.advance.faultPc = s.faultPc := rfl
@[simp] theorem advance_faultOpcode (s : State) : s.advance.faultOpcode = s.faultOpcode := rfl
@[simp] theorem advance_readV (s : State) (q : Reg) : s.advance.readV q = s.readV q := rfl
@[simp] theorem advance_slot (s : State) (k : Fin 16) : s.advance.slot k = s.slot k := rfl
@[simp] theorem advance_memRead (s : State) (q : Nat) : memRead q s.advance = memRead q s := rfl

/-! ### pop -/

@[simp] theorem pop_v (s : State) : s.pop.v = s.v := rfl
@[simp] theorem pop_mem (s : State) : s.pop.mem = s.mem := rfl
@[simp] theorem pop_pc (s : State) : s.pop.pc = s.pc := rfl
@[simp] theorem pop_stack (s : State) : s.pop.stack = s.stack := rfl
@[simp] theorem pop_sp (s : State) : s.pop.sp = ⟨s.sp.val - 1, by omega⟩ := rfl
@[simp] theorem pop_status (s : State) : s.pop.status = s.status := rfl
@[simp] theorem pop_cause (s : State) : s.pop.cause = s.cause := rfl
@[simp] theorem pop_faultPc (s : State) : s.pop.faultPc = s.faultPc := rfl
@[simp] theorem pop_faultOpcode (s : State) : s.pop.faultOpcode = s.faultOpcode := rfl
@[simp] theorem pop_readV (s : State) (q : Reg) : s.pop.readV q = s.readV q := rfl
@[simp] theorem pop_slot (s : State) (k : Fin 16) : s.pop.slot k = s.slot k := rfl
@[simp] theorem pop_memRead (s : State) (q : Nat) : memRead q s.pop = memRead q s := rfl

/-! ### raiseFatal -/

@[simp] theorem raiseFatal_v (c : Cause) (a w : Word) (s : State) : (raiseFatal c a w s).v = s.v := rfl
@[simp] theorem raiseFatal_mem (c : Cause) (a w : Word) (s : State) : (raiseFatal c a w s).mem = s.mem := rfl
@[simp] theorem raiseFatal_pc (c : Cause) (a w : Word) (s : State) : (raiseFatal c a w s).pc = s.pc := rfl
@[simp] theorem raiseFatal_stack (c : Cause) (a w : Word) (s : State) : (raiseFatal c a w s).stack = s.stack := rfl
@[simp] theorem raiseFatal_sp (c : Cause) (a w : Word) (s : State) : (raiseFatal c a w s).sp = s.sp := rfl
@[simp] theorem raiseFatal_status (c : Cause) (a w : Word) (s : State) : (raiseFatal c a w s).status = .fault := rfl
@[simp] theorem raiseFatal_cause (c : Cause) (a w : Word) (s : State) : (raiseFatal c a w s).cause = c := rfl
@[simp] theorem raiseFatal_faultPc (c : Cause) (a w : Word) (s : State) : (raiseFatal c a w s).faultPc = a := rfl
@[simp] theorem raiseFatal_faultOpcode (c : Cause) (a w : Word) (s : State) : (raiseFatal c a w s).faultOpcode = w := rfl
@[simp] theorem raiseFatal_readV (c : Cause) (a w : Word) (s : State) (q : Reg) : (raiseFatal c a w s).readV q = s.readV q := rfl
@[simp] theorem raiseFatal_slot (c : Cause) (a w : Word) (s : State) (k : Fin 16) : (raiseFatal c a w s).slot k = s.slot k := rfl
@[simp] theorem raiseFatal_memRead (c : Cause) (a w : Word) (s : State) (q : Nat) : memRead q (raiseFatal c a w s) = memRead q s := rfl

/-! ### raiseFatalIn -/

@[simp] theorem raiseFatalIn_v (c : Cause) (i : Instr) (s : State) : (raiseFatalIn c i s).v = s.v := rfl
@[simp] theorem raiseFatalIn_mem (c : Cause) (i : Instr) (s : State) : (raiseFatalIn c i s).mem = s.mem := rfl
@[simp] theorem raiseFatalIn_pc (c : Cause) (i : Instr) (s : State) : (raiseFatalIn c i s).pc = s.pc := rfl
@[simp] theorem raiseFatalIn_stack (c : Cause) (i : Instr) (s : State) : (raiseFatalIn c i s).stack = s.stack := rfl
@[simp] theorem raiseFatalIn_sp (c : Cause) (i : Instr) (s : State) : (raiseFatalIn c i s).sp = s.sp := rfl
@[simp] theorem raiseFatalIn_status (c : Cause) (i : Instr) (s : State) : (raiseFatalIn c i s).status = .fault := rfl
@[simp] theorem raiseFatalIn_cause (c : Cause) (i : Instr) (s : State) : (raiseFatalIn c i s).cause = c := rfl
@[simp] theorem raiseFatalIn_faultPc (c : Cause) (i : Instr) (s : State) : (raiseFatalIn c i s).faultPc = s.instrAddr := rfl
@[simp] theorem raiseFatalIn_faultOpcode (c : Cause) (i : Instr) (s : State) : (raiseFatalIn c i s).faultOpcode = encode i := rfl
@[simp] theorem raiseFatalIn_readV (c : Cause) (i : Instr) (s : State) (q : Reg) : (raiseFatalIn c i s).readV q = s.readV q := rfl
@[simp] theorem raiseFatalIn_slot (c : Cause) (i : Instr) (s : State) (k : Fin 16) : (raiseFatalIn c i s).slot k = s.slot k := rfl
@[simp] theorem raiseFatalIn_memRead (c : Cause) (i : Instr) (s : State) (q : Nat) : memRead q (raiseFatalIn c i s) = memRead q s := rfl

/-! ### loadByte -/

@[simp] theorem loadByte_v (a : Addr) (b : Byte) (s : State) : (loadByte a b s).v = s.v := rfl
@[simp] theorem loadByte_mem (a : Addr) (b : Byte) (s : State) : (loadByte a b s).mem = s.mem.write a.toNat b := rfl
@[simp] theorem loadByte_pc (a : Addr) (b : Byte) (s : State) : (loadByte a b s).pc = s.pc := rfl
@[simp] theorem loadByte_stack (a : Addr) (b : Byte) (s : State) : (loadByte a b s).stack = s.stack := rfl
@[simp] theorem loadByte_sp (a : Addr) (b : Byte) (s : State) : (loadByte a b s).sp = s.sp := rfl
@[simp] theorem loadByte_status (a : Addr) (b : Byte) (s : State) : (loadByte a b s).status = s.status := rfl
@[simp] theorem loadByte_cause (a : Addr) (b : Byte) (s : State) : (loadByte a b s).cause = s.cause := rfl
@[simp] theorem loadByte_faultPc (a : Addr) (b : Byte) (s : State) : (loadByte a b s).faultPc = s.faultPc := rfl
@[simp] theorem loadByte_faultOpcode (a : Addr) (b : Byte) (s : State) : (loadByte a b s).faultOpcode = s.faultOpcode := rfl
@[simp] theorem loadByte_readV (a : Addr) (b : Byte) (s : State) (q : Reg) : (loadByte a b s).readV q = s.readV q := rfl
@[simp] theorem loadByte_slot (a : Addr) (b : Byte) (s : State) (k : Fin 16) : (loadByte a b s).slot k = s.slot k := rfl

end Sys2Proof.Machine
end

