-- ==== Sys2Proof/Laws/Ops.lean ====
section
/-! SUPPORT. One lemma for each shared operation over registers, the call stack and memory: what it can do. -/

namespace Sys2Proof.Machine

/-- A register read after a register write. -/
theorem readV_writeV (s : State) (r q : Reg) (b : Byte) : (s.writeV r b).readV q = if q = r then b else s.readV q := by
  unfold State.readV State.writeV
  by_cases h : q = r
  · subst h; simp
  · have hne : ¬ r.toNat = q.toNat := fun e => h (BitVec.eq_of_toNat_eq e.symm)
    simp [h, hne]

@[simp] theorem readV_writeV_self (s : State) (r : Reg) (b : Byte) : (s.writeV r b).readV r = b := by
  simp [readV_writeV]

/-- Two register files that read the same are the same. -/
theorem v_ext {s t : State} (h : ∀ r, s.readV r = t.readV r) : s.v = t.v := by
  apply Vector.ext
  intro k hk
  have := h (BitVec.ofNat 4 k)
  have hk' : k % 16 = k := Nat.mod_eq_of_lt hk
  simpa [State.readV, hk'] using this

/-- A push onto a stack that is not full: the slot at `sp`, and `sp` one higher. -/
theorem push_spec (s : State) (t : Word) (h : s.sp.val < 16) :
    (s.push t).sp.val = s.sp.val + 1 ∧
    ∀ k : Fin 16, (s.push t).slot k = if k.val = s.sp.val then t else s.slot k := by
  unfold State.push
  simp only [h, dite_true, true_and]
  intro k
  by_cases hk : k.val = s.sp.val
  · simp [State.slot, hk]
  · have : ¬ s.sp.val = k.val := fun e => hk e.symm
    simp [State.slot, hk, this]

/-- A push changes the stack and `sp` alone. -/
theorem push_frame (s : State) (t : Word) :
    (s.push t).v = s.v ∧ (s.push t).mem = s.mem ∧ (s.push t).pc = s.pc ∧ (s.push t).status = s.status ∧
    (s.push t).cause = s.cause ∧ (s.push t).faultPc = s.faultPc ∧ (s.push t).faultOpcode = s.faultOpcode := by
  unfold State.push; split <;> simp

@[simp] theorem push_readV (s : State) (t : Word) (r : Reg) : (s.push t).readV r = s.readV r := by
  unfold State.push; split <;> rfl

/-- The top of the stack is the slot below `sp`. -/
theorem top_eq (s : State) (k : Fin 16) (h : k.val = s.sp.val - 1) : s.top = s.slot k := by
  unfold State.top
  congr 1
  exact Fin.ext h.symm

/-- A skip either advances `pc` by 2 or leaves the state alone. -/
theorem skipIf_eq (s : State) (c : Bool) : s.skipIf c = s.setPc (if c then s.pc + 2#16 else s.pc) := by
  cases c <;> rfl

/-- MemRead after one byte is written inside memory. -/
theorem memRead_write {s : State} (h : s.mem.wf = true) {a : Nat} (ha : a < Config.memSize) (b : Byte) (c : Nat) :
    memRead c { s with mem := s.mem.write a b } = if c = a then some b else memRead c s := by
  unfold memRead
  by_cases hc : c = a
  · subst hc; simp [ha, read_write h]
  · simp [read_write h, hc]

end Sys2Proof.Machine
end

