-- ==== Sys2Proof/Laws/Engine.lean ====
section
/-! SUPPORT. What the fetch, the meanings and a step can do, said once each. -/

namespace Sys2Proof.Machine

/-- The fetch, all of it. -/
theorem fetchWord_eq (s : State) :
    fetchWord s = if Config.lastFetch < s.pc.toNat then none
      else some (wordOfBytes (s.mem.read s.pc.toNat) (s.mem.read (s.pc.toNat + 1))) := by
  unfold fetchWord
  by_cases h : Config.lastFetch < s.pc.toNat
  · simp [h]
  · have h0 : s.pc.toNat < Config.memSize := by unfold Config.lastFetch at h; unfold Config.memSize; omega
    have h1 : s.pc.toNat + 1 < Config.memSize := by unfold Config.lastFetch at h; unfold Config.memSize; omega
    simp [h, memRead, h0, h1]

theorem fetchWord_none_iff (s : State) : fetchWord s = none ↔ 0xFFE < s.pc.toNat := by
  rw [fetchWord_eq]
  unfold Config.lastFetch
  split <;> simp_all

theorem pc_le_of_fetch {s : State} {w : Word} (h : fetchWord s = some w) : s.pc.toNat ≤ 0xFFE := by
  by_contra hc
  have := (fetchWord_none_iff s).mpr (by omega)
  rw [this] at h
  cases h

/-- While an instruction executes, its address is the `pc` its step began with. -/
@[simp] theorem advance_instrAddr (s : State) : s.advance.instrAddr = s.pc := by
  simp [State.instrAddr]

/-- A word is rejected for one reason. -/
theorem decode_rejected {w : Word} {why : Reject} (h : decode w = .rejected why) : why = .unsupported := by
  unfold decode decodeFamily decodeAlu at h
  repeat' split at h
  all_goals simp_all

/-- What a meaning can do, all of it: registers alone, `pc` alone, the run state alone, one stack operation, or a fault. -/
theorem exec_cases (i : Instr) (s : State) :
    ∃ t, exec i s = .next t ∧
      ((∃ v', t = { s with v := v' } ∧ ∃ x, destReg i = some x) ∨
       (∃ p, t = s.setPc p ∧ (p = s.pc ∨ p = s.pc + 2#16 ∨ ∃ nnn, p = zext16 nnn) ∧ i ≠ .ret ∧ i ≠ .halt ∧
          ∀ nnn, i ≠ .call nnn) ∨
       (i = .halt ∧ t = s.setStatus .halted) ∨
       (i = .ret ∧ 0 < s.sp.val ∧ t = s.pop.setPc s.top) ∨
       (∃ nnn, i = .call nnn ∧ s.sp.val < 16 ∧ t = (s.push s.pc).setPc (zext16 nnn)) ∨
       (i = .ret ∧ s.sp.val = 0 ∧ t = raiseFatalIn .stackUnderflow .ret s) ∨
       (∃ nnn, i = .call nnn ∧ s.sp.val = 16 ∧ t = raiseFatalIn .stackOverflow (.call nnn) s)) := by
  cases i with
  | halt => exact ⟨_, rfl, .inr (.inr (.inl ⟨rfl, rfl⟩))⟩
  | clear => exact ⟨_, rfl, .inr (.inl ⟨s.pc, rfl, .inl rfl, by simp⟩)⟩
  | ret =>
    by_cases h : s.sp.val = 0
    · exact ⟨_, by simp [exec, execRet, State.stackEmpty, h], .inr (.inr (.inr (.inr (.inr (.inl ⟨rfl, h, rfl⟩)))))⟩
    · exact ⟨_, by simp [exec, execRet, State.stackEmpty, h], .inr (.inr (.inr (.inl ⟨rfl, by omega, rfl⟩)))⟩
  | jump nnn => exact ⟨_, rfl, .inr (.inl ⟨_, rfl, .inr (.inr ⟨nnn, rfl⟩), by simp⟩)⟩
  | call nnn =>
    by_cases h : s.sp.val = 16
    · exact ⟨_, by simp [exec, execCall, State.stackFull, h],
        .inr (.inr (.inr (.inr (.inr (.inr ⟨nnn, rfl, h, rfl⟩)))))⟩
    · exact ⟨_, by simp [exec, execCall, State.stackFull, h],
        .inr (.inr (.inr (.inr (.inl ⟨nnn, rfl, by omega, rfl⟩))))⟩
  | skipEqImm x kk =>
    exact ⟨_, rfl, .inr (.inl ⟨_, skipIf_eq _ _, by split <;> simp, by simp⟩)⟩
  | skipNeImm x kk =>
    exact ⟨_, rfl, .inr (.inl ⟨_, skipIf_eq _ _, by split <;> simp, by simp⟩)⟩
  | skipEqReg x y =>
    exact ⟨_, rfl, .inr (.inl ⟨_, skipIf_eq _ _, by split <;> simp, by simp⟩)⟩
  | loadImm x kk => exact ⟨_, rfl, .inl ⟨_, rfl, x, rfl⟩⟩
  | addImm x kk => exact ⟨_, rfl, .inl ⟨_, rfl, x, rfl⟩⟩
  | loadReg x y => exact ⟨_, rfl, .inl ⟨_, rfl, x, rfl⟩⟩
  | orReg x y => exact ⟨_, rfl, .inl ⟨_, rfl, x, rfl⟩⟩
  | andReg x y => exact ⟨_, rfl, .inl ⟨_, rfl, x, rfl⟩⟩
  | xorReg x y => exact ⟨_, rfl, .inl ⟨_, rfl, x, rfl⟩⟩
  | addReg x y => exact ⟨_, rfl, .inl ⟨_, rfl, x, rfl⟩⟩
  | subReg x y => exact ⟨_, rfl, .inl ⟨_, rfl, x, rfl⟩⟩

/-- What a step can do, all of it: nothing outside RUNNING, a fetch out of range, an unsupported word, or an instruction. -/
theorem step_cases (s : State) :
    (s.status ≠ .running ∧ step s = .next s) ∨
    (s.status = .running ∧ fetchWord s = none ∧ step s = .next (raiseFatal .fetchOutOfRange s.pc 0x0000#16 s)) ∨
    (∃ w, s.status = .running ∧ fetchWord s = some w ∧ decode w = .rejected .unsupported ∧
      step s = .next (raiseFatal .unsupportedOpcode s.pc w s.advance)) ∨
    (∃ w i, s.status = .running ∧ fetchWord s = some w ∧ decode w = .instr i ∧ step s = exec i s.advance) := by
  by_cases hr : s.status = .running
  · right
    cases hf : fetchWord s with
    | none => exact .inl ⟨hr, rfl, by simp [step, engineStep, hr, runStep, hf]⟩
    | some w =>
      right
      cases hd : decode w with
      | rejected why =>
        have := decode_rejected hd
        subst this
        exact .inl ⟨w, hr, rfl, hd, by simp [step, engineStep, hr, runStep, hf, decodeAndExec, hd]⟩
      | instr i => exact .inr ⟨w, i, hr, rfl, hd, by simp [step, engineStep, hr, runStep, hf, decodeAndExec, hd]⟩
  · left
    refine ⟨hr, ?_⟩
    unfold step engineStep
    cases hs : s.status <;> simp_all

end Sys2Proof.Machine
end

