-- ==== Sys2Proof/Laws/PerInstr.lean ====
section
/-! SUPPORT. A law made per instruction, EncodesInItsRow: the word of an instruction carries its mnemonic's row of the opcode
map (spec/30_encoding.md R74). -/

namespace Sys2Proof.Laws

/-- The row of R74 with the instruction's mnemonic exists, and the instruction's word matches it. -/
def EncodesInItsRow.Statement (i : Instr) : Prop :=
  ∃ r ∈ opcodeTable, r.mnemonic = i.mnemonic ∧ r.matchesWord (encode i) = true

/-- Under the mask 0xF000 only the first nibble of a word is left. -/
theorem mask_nnn (op : BitVec 4) (nnn : Addr) : wordNNN op nnn &&& 0xF000#16 = BitVec.ofNat 16 (op.toNat * 4096) := by
  have := nnn.isLt
  have h : (op.toNat * 4096 + nnn.toNat) / 2 ^ 12 * 2 ^ 12 = op.toNat * 4096 := by omega
  rw [and_F000, wordNNN_toNat, h]

theorem mask_xkk (op : BitVec 4) (x : Reg) (kk : Byte) :
    wordXKK op x kk &&& 0xF000#16 = BitVec.ofNat 16 (op.toNat * 4096) := by
  have := x.isLt
  have := kk.isLt
  have h : (op.toNat * 4096 + x.toNat * 256 + kk.toNat) / 2 ^ 12 * 2 ^ 12 = op.toNat * 4096 := by omega
  rw [and_F000, wordXKK_toNat, h]

/-- Under the mask 0xF00F the first and the last nibble of a word are left. -/
theorem mask_xyn (op : BitVec 4) (x y : Reg) (n : BitVec 4) :
    wordXYN op x y n &&& 0xF00F#16 = BitVec.ofNat 16 (op.toNat * 4096 + n.toNat) := by
  have := x.isLt
  have := y.isLt
  have := n.isLt
  have h : (op.toNat * 4096 + x.toNat * 256 + y.toNat * 16 + n.toNat) / 2 ^ 12 * 2 ^ 12 +
      (op.toNat * 4096 + x.toNat * 256 + y.toNat * 16 + n.toNat) % 2 ^ 4 = op.toNat * 4096 + n.toNat := by omega
  rw [and_F00F, wordXYN_toNat, h]

theorem EncodesInItsRow.halt : EncodesInItsRow.Statement .halt :=
  ⟨⟨"HALT", 0xFFFF#16, 0x0000#16⟩, by decide, rfl, by decide⟩

theorem EncodesInItsRow.clear : EncodesInItsRow.Statement .clear :=
  ⟨⟨"CLEAR", 0xFFFF#16, 0x00E0#16⟩, by decide, rfl, by decide⟩

theorem EncodesInItsRow.ret : EncodesInItsRow.Statement .ret :=
  ⟨⟨"RETURN", 0xFFFF#16, 0x00EE#16⟩, by decide, rfl, by decide⟩

theorem EncodesInItsRow.jump (nnn : Addr) : EncodesInItsRow.Statement (.jump nnn) :=
  ⟨⟨"JUMP", 0xF000#16, 0x1000#16⟩, by decide, rfl, by rw [OpcodeRow.matchesWord, encode, mask_nnn]; decide⟩

theorem EncodesInItsRow.call (nnn : Addr) : EncodesInItsRow.Statement (.call nnn) :=
  ⟨⟨"CALL", 0xF000#16, 0x2000#16⟩, by decide, rfl, by rw [OpcodeRow.matchesWord, encode, mask_nnn]; decide⟩

theorem EncodesInItsRow.skipEqImm (x : Reg) (kk : Byte) : EncodesInItsRow.Statement (.skipEqImm x kk) :=
  ⟨⟨"SKIP-IF-EQUAL-IMM", 0xF000#16, 0x3000#16⟩, by decide, rfl, by rw [OpcodeRow.matchesWord, encode, mask_xkk]; decide⟩

theorem EncodesInItsRow.skipNeImm (x : Reg) (kk : Byte) : EncodesInItsRow.Statement (.skipNeImm x kk) :=
  ⟨⟨"SKIP-IF-NOT-EQUAL-IMM", 0xF000#16, 0x4000#16⟩, by decide, rfl, by rw [OpcodeRow.matchesWord, encode, mask_xkk]; decide⟩

theorem EncodesInItsRow.skipEqReg (x y : Reg) : EncodesInItsRow.Statement (.skipEqReg x y) :=
  ⟨⟨"SKIP-IF-EQUAL-REG", 0xF00F#16, 0x5000#16⟩, by decide, rfl, by rw [OpcodeRow.matchesWord, encode, mask_xyn]; decide⟩

theorem EncodesInItsRow.loadImm (x : Reg) (kk : Byte) : EncodesInItsRow.Statement (.loadImm x kk) :=
  ⟨⟨"LOAD-IMM", 0xF000#16, 0x6000#16⟩, by decide, rfl, by rw [OpcodeRow.matchesWord, encode, mask_xkk]; decide⟩

theorem EncodesInItsRow.addImm (x : Reg) (kk : Byte) : EncodesInItsRow.Statement (.addImm x kk) :=
  ⟨⟨"ADD-IMM", 0xF000#16, 0x7000#16⟩, by decide, rfl, by rw [OpcodeRow.matchesWord, encode, mask_xkk]; decide⟩

theorem EncodesInItsRow.loadReg (x y : Reg) : EncodesInItsRow.Statement (.loadReg x y) :=
  ⟨⟨"LOAD-REG", 0xF00F#16, 0x8000#16⟩, by decide, rfl, by rw [OpcodeRow.matchesWord, encode, mask_xyn]; decide⟩

theorem EncodesInItsRow.orReg (x y : Reg) : EncodesInItsRow.Statement (.orReg x y) :=
  ⟨⟨"OR", 0xF00F#16, 0x8001#16⟩, by decide, rfl, by rw [OpcodeRow.matchesWord, encode, mask_xyn]; decide⟩

theorem EncodesInItsRow.andReg (x y : Reg) : EncodesInItsRow.Statement (.andReg x y) :=
  ⟨⟨"AND", 0xF00F#16, 0x8002#16⟩, by decide, rfl, by rw [OpcodeRow.matchesWord, encode, mask_xyn]; decide⟩

theorem EncodesInItsRow.xorReg (x y : Reg) : EncodesInItsRow.Statement (.xorReg x y) :=
  ⟨⟨"XOR", 0xF00F#16, 0x8003#16⟩, by decide, rfl, by rw [OpcodeRow.matchesWord, encode, mask_xyn]; decide⟩

theorem EncodesInItsRow.addReg (x y : Reg) : EncodesInItsRow.Statement (.addReg x y) :=
  ⟨⟨"ADD-REG", 0xF00F#16, 0x8004#16⟩, by decide, rfl, by rw [OpcodeRow.matchesWord, encode, mask_xyn]; decide⟩

theorem EncodesInItsRow.subReg (x y : Reg) : EncodesInItsRow.Statement (.subReg x y) :=
  ⟨⟨"SUB-REG", 0xF00F#16, 0x8005#16⟩, by decide, rfl, by rw [OpcodeRow.matchesWord, encode, mask_xyn]; decide⟩

end Sys2Proof.Laws
end

