-- ==== Sys2Proof/Tests/Slice0.lean ====
section
/-! SUPPORT. The model's own tests. Expected results come from spec/95_test_vectors.md (the vector is named above each group),
from spec/45_alu.md R179, and from the encodings of spec/30_encoding.md R74 written out by hand. Then one witness for every
statement that has hypotheses, and one for each of its clauses. -/

namespace Sys2Proof.Tests

open Sys2Proof.Machine

/-! ## Well-formedness: each check refuses an ill-formed written instruction -/

theorem test_wf_accepts : AsmInstr.wellFormed ⟨"ADD-REG", [.reg 15, .reg 0]⟩ = true := by decide
theorem test_wf_unknown_mnemonic : AsmInstr.wellFormed ⟨"SHL", [.reg 1]⟩ = false := by decide
theorem test_wf_too_few_operands : AsmInstr.wellFormed ⟨"ADD-REG", [.reg 1]⟩ = false := by decide
theorem test_wf_too_many_operands : AsmInstr.wellFormed ⟨"HALT", [.reg 1]⟩ = false := by decide
theorem test_wf_wrong_kind : AsmInstr.wellFormed ⟨"LOAD-IMM", [.reg 1, .reg 2]⟩ = false := by decide
theorem test_wf_register_too_large : AsmInstr.wellFormed ⟨"OR", [.reg 16, .reg 2]⟩ = false := by decide
theorem test_wf_byte_too_large : AsmInstr.wellFormed ⟨"ADD-IMM", [.reg 1, .imm 256]⟩ = false := by decide
theorem test_wf_address_too_large : AsmInstr.wellFormed ⟨"JUMP", [.addr 4096]⟩ = false := by decide

/-! ## Decoding: one word of each instruction, its bits written from R74, and V-DEC's rejected words -/

theorem test_decode_halt : decode 0b0000000000000000#16 = .instr .halt := by decide
theorem test_decode_clear : decode 0b0000000011100000#16 = .instr .clear := by decide
theorem test_decode_ret : decode 0b0000000011101110#16 = .instr .ret := by decide
theorem test_decode_jump : decode 0b0001101010111100#16 = .instr (.jump 0xABC#12) := by decide
theorem test_decode_call : decode 0b0010101010111100#16 = .instr (.call 0xABC#12) := by decide
theorem test_decode_skipEqImm : decode 0b0011101001011100#16 = .instr (.skipEqImm 0xA#4 0x5C#8) := by decide
theorem test_decode_skipNeImm : decode 0b0100111100000001#16 = .instr (.skipNeImm 0xF#4 0x01#8) := by decide
theorem test_decode_skipEqReg : decode 0b0101000100100000#16 = .instr (.skipEqReg 0x1#4 0x2#4) := by decide
theorem test_decode_loadImm : decode 0b0110101111001101#16 = .instr (.loadImm 0xB#4 0xCD#8) := by decide
theorem test_decode_addImm : decode 0b0111111010000001#16 = .instr (.addImm 0xE#4 0x81#8) := by decide
theorem test_decode_loadReg : decode 0b1000101010110000#16 = .instr (.loadReg 0xA#4 0xB#4) := by decide
theorem test_decode_orReg : decode 0b1000101010110001#16 = .instr (.orReg 0xA#4 0xB#4) := by decide
theorem test_decode_andReg : decode 0b1000101010110010#16 = .instr (.andReg 0xA#4 0xB#4) := by decide
theorem test_decode_xorReg : decode 0b1000101010110011#16 = .instr (.xorReg 0xA#4 0xB#4) := by decide
theorem test_decode_addReg : decode 0b1000101010110100#16 = .instr (.addReg 0xA#4 0xB#4) := by decide
theorem test_decode_subReg : decode 0b1000101010110101#16 = .instr (.subReg 0xA#4 0xB#4) := by decide

theorem test_decode_unsupported :
    [0x0001#16, 0x00E1#16, 0x00EF#16, 0x0123#16, 0x0FFF#16, 0x5121#16, 0x5FFF#16, 0x8AB6#16, 0x8AB7#16, 0x8ABE#16, 0x8ABF#16,
      0x9120#16, 0xA123#16, 0xD123#16, 0xF165#16, 0xFFFF#16, 0xABCD#16].map decode
      = List.replicate 17 (.rejected .unsupported) := by decide

/-- V-DEC: the fields of 0xABCD. -/
theorem test_fields : fieldsOf 0xABCD#16 = ⟨0xA#4, 0xB#4, 0xC#4, 0xCD#8, 0xD#4, 0xBCD#12⟩ := by decide

theorem test_decode_truncated : decodeBytes [0x12#8] = (.rejected .truncated, [0x12#8]) := by decide
theorem test_decode_rest : decodeBytes [0x12#8, 0x34#8, 0x56#8] = (.instr (.jump 0x234#12), [0x56#8]) := by decide
theorem test_decode_table_word : decodeTableWord 16 0x8AB5 = some (.subReg 0xA#4 0xB#4) := by decide
theorem test_encode_call : encodeBytes (.call 0x100#12) = [0x21#8, 0x00#8] := by decide

/-! ## One step -/

/-- A state with the given registers, the rest as after reset. -/
def regs (l : List (Reg × Byte)) : State := l.foldl (fun s p => s.writeV p.1 p.2) State.reset

/-- A state with a stack of the given return addresses, the last one on top, the rest as after reset. -/
def called (l : List Word) : State := l.foldl (fun s t => s.push t) State.reset

/-- The state after one step that fetches the word at the state's `pc`. -/
def after (w : Nat) (s : State) : Option State :=
  match step (s.withFetchWord 16 w) with
  | .next t => some t
  | .fault _ => none
  | .refused _ => none

/-- The status, `cause`, `fault_pc` and `fault_opcode` the host observes. -/
def record (t : State) : BitVec 2 × BitVec 3 × Word × Word :=
  (observeStatus t, observeCause t, observeFaultPc t, observeFaultOpcode t)

/-- V-SYS. -/
theorem test_halt : (after 0x0000 State.reset).map (fun t => (t.status, t.pc)) = some (.halted, 0x002#16) := by decide
theorem test_halt_at_end :
    (after 0x0000 (State.reset.setPc 0xFFE#16)).map (fun t => (t.status, t.pc)) = some (.halted, 0x1000#16) := by decide
theorem test_clear :
    (after 0x00E0 ((regs [(0, 0x99)]).setPc 0x010#16)).map (fun t => (t.status, t.pc, t.readV 0)) =
      some (.running, 0x012#16, 0x99#8) := by decide

/-- V-FLOW. -/
theorem test_jump : (after 0x1234 State.reset).map (·.pc) = some 0x234#16 := by decide
theorem test_jump_odd : (after 0x1001 State.reset).map (·.pc) = some 0x001#16 := by decide
theorem test_call_at_end :
    (after 0x2000 ((called [0x111#16, 0x222#16]).setPc 0xFFE#16)).map (fun t => (t.slot 2, t.sp, t.pc)) =
      some (0x1000#16, 3, 0x000#16) := by decide
theorem test_call_full :
    (after 0x2300 ((called (List.replicate 16 0x0AA#16)).setPc 0x050#16)).map (fun t => (record t, t.pc, t.sp, t.slot 15)) =
      some ((3#2, 2#3, 0x050#16, 0x2300#16), 0x052#16, 16, 0x0AA#16) := by decide
theorem test_return_keeps_slot :
    (after 0x00EE ((called [0x004#16]).setPc 0x104#16)).map (fun t => (t.sp, t.pc, t.slot 0)) =
      some (0, 0x004#16, 0x004#16) := by decide
theorem test_return_empty :
    (after 0x00EE State.reset).map (fun t => (record t, t.pc, t.sp)) =
      some ((3#2, 1#3, 0x000#16, 0x00EE#16), 0x002#16, 0) := by decide

/-- V-SKIP. -/
theorem test_skipEqImm_taken :
    (after 0x3F01 ((regs [(0xF, 0x01)]).setPc 0x020#16)).map (·.pc) = some 0x024#16 := by decide
theorem test_skipEqImm_at_end :
    (after 0x3000 (State.reset.setPc 0xFFE#16)).map (·.pc) = some 0x1002#16 := by decide
theorem test_skipNeImm_taken : (after 0x4001 (State.reset.setPc 0x020#16)).map (·.pc) = some 0x024#16 := by decide
theorem test_skipNeImm_not :
    (after 0x40FF ((regs [(0, 0xFF)]).setPc 0x020#16)).map (·.pc) = some 0x022#16 := by decide
theorem test_skipEqReg_taken :
    (after 0x5010 ((regs [(0, 0x03), (1, 0x03)]).setPc 0x020#16)).map (·.pc) = some 0x024#16 := by decide
/-- The reference's index defect (R153) would give 0x024. -/
theorem test_skipEqReg_not_the_index :
    (after 0x5010 ((regs [(0, 0x01), (1, 0x03)]).setPc 0x020#16)).map (·.pc) = some 0x022#16 := by decide

/-- V-IMM. -/
theorem test_loadImm : (after 0x6A7F State.reset).map (·.readV 0xA) = some 0x7F#8 := by decide
theorem test_loadImm_vf : (after 0x6F00 (regs [(0xF, 0x01)])).map (·.readV 0xF) = some 0x00#8 := by decide
theorem test_addImm_no_carry :
    (after 0x7220 (regs [(2, 0xF0), (0xF, 0x01)])).map (fun t => (t.readV 2, t.readV 0xF)) = some (0x10#8, 0x01#8) := by decide
theorem test_addImm_vf : (after 0x7F01 (regs [(0xF, 0xFF)])).map (·.readV 0xF) = some 0x00#8 := by decide

/-- V-ALU. -/
theorem test_loadReg : (after 0x8350 (regs [(5, 0x9C)])).map (·.readV 3) = some 0x9C#8 := by decide
theorem test_loadReg_from_vf : (after 0x82F0 (regs [(0xF, 0x01)])).map (·.readV 2) = some 0x01#8 := by decide
theorem test_or_keeps_vf :
    (after 0x8021 (regs [(0, 0x70), (2, 0x01), (0xF, 0x07)])).map (fun t => (t.readV 0, t.readV 0xF)) =
      some (0x71#8, 0x07#8) := by decide
theorem test_and : (after 0x8302 (regs [(3, 0x55), (0, 0xF0)])).map (·.readV 3) = some 0x50#8 := by decide
theorem test_xor : (after 0x8313 (regs [(3, 0x50), (1, 0x20)])).map (·.readV 3) = some 0x70#8 := by decide
theorem test_xor_self : (after 0x8443 (regs [(4, 0xA5)])).map (·.readV 4) = some 0x00#8 := by decide
theorem test_addReg_y_is_vf :
    (after 0x80F4 (regs [(0, 0x10), (0xF, 0xF5)])).map (fun t => (t.readV 0, t.readV 0xF)) = some (0x05#8, 0x01#8) := by decide
theorem test_addReg_x_is_vf : (after 0x8F14 (regs [(0xF, 0x10), (1, 0x05)])).map (·.readV 0xF) = some 0x00#8 := by decide
theorem test_subReg_y_is_vf :
    (after 0x80F5 (regs [(0, 0x10), (0xF, 0x03)])).map (fun t => (t.readV 0, t.readV 0xF)) = some (0x0D#8, 0x01#8) := by decide
theorem test_subReg_x_is_vf : (after 0x8F15 (regs [(0xF, 0x03), (1, 0x10)])).map (·.readV 0xF) = some 0xF3#8 := by decide

/-- R179: the boundary table, sums and carries, differences and comparisons. -/
def boundary : List (Byte × Byte × Byte × Byte × Byte × Byte) :=
  [ (0x00, 0x00, 0x00, 0, 0x00, 0), (0xFF, 0x00, 0xFF, 0, 0xFF, 1), (0x00, 0xFF, 0xFF, 0, 0x01, 0),
    (0xFF, 0x01, 0x00, 1, 0xFE, 1), (0x01, 0xFF, 0x00, 1, 0x02, 0), (0x80, 0x80, 0x00, 1, 0x00, 0),
    (0xFF, 0xFF, 0xFE, 1, 0x00, 0), (0x7F, 0x80, 0xFF, 0, 0xFF, 0), (0x81, 0x80, 0x01, 1, 0x01, 1) ]

theorem test_boundary_table :
    (boundary.all fun (a, b, sum, carry, diff, greater) =>
      aluAdd a b == sum && carryFlag a b == carry && aluSub a b == diff && greaterFlag a b == greater) = true := by decide

/-- V-FET. -/
theorem test_fetch_odd :
    (after 0x617F (State.reset.setPc 0x201#16)).map (fun t => (t.readV 1, t.pc)) = some (0x7F#8, 0x203#16) := by decide
theorem test_fetch_at_end : (after 0x00E0 (State.reset.setPc 0xFFE#16)).map (·.pc) = some 0x1000#16 := by decide

/-- The state a step of a started machine at the given `pc` leaves, with memory as after reset. -/
def afterAt (pc : Word) : Option State :=
  match step ((State.reset.setPc pc).setStatus .running) with
  | .next t => some t
  | .fault _ => none
  | .refused _ => none

theorem test_fetch_beyond :
    [0xFFF#16, 0x1000#16, 0x1002#16].map (fun p => (afterAt p).map (fun t => (record t, t.pc))) =
      [some ((3#2, 4#3, 0xFFF#16, 0x0000#16), 0xFFF#16), some ((3#2, 4#3, 0x1000#16, 0x0000#16), 0x1000#16),
       some ((3#2, 4#3, 0x1002#16, 0x0000#16), 0x1002#16)] := by decide

/-- V-ALU, V-SKIP: unsupported words of the families. -/
theorem test_unsupported_step :
    (after 0x5011 (State.reset.setPc 0x020#16)).map (fun t => (record t, t.pc)) =
      some ((3#2, 3#3, 0x020#16, 0x5011#16), 0x022#16) := by decide

theorem test_idle_waits : core.run 3 State.reset = .next State.reset := rfl

/-! ## The host and the conservative variant -/

theorem test_host_load_and_start :
    (hostMoves [.loadByte 0x000 0x21, .loadReg 3 0x42, .start] State.reset).map
      (fun t => (t.status, memRead 0 t, t.readV 3)) = some (.running, some 0x21#8, 0x42#8) := by decide
theorem test_host_no_load_after_start : hostMoves [.start, .loadReg 3 0x42] State.reset = none := by decide

/-- spec/95_test_vectors.md P9's remark: under ODD_FETCH = fault an odd fetch faults. -/
theorem test_conservative_odd_fetch :
    stepWith ⟨.fault, .snapshot⟩ ((State.reset.setPc 0x101#16).withFetchWord 16 0x2200) = .fault .oddFetch := rfl
theorem test_conservative_vf_operand :
    stepWith ⟨.allow, .fault⟩ (State.reset.withFetchWord 16 0x80F5) = .fault .vfOperand := rfl

/-! ## Witnesses: the hypotheses of each statement are met, each clause's too -/

/-- A started machine with one word at `pc` = 0. -/
def started (w : Nat) : State := State.reset.withFetchWord 16 w

theorem witness_EncodeOfDecodeIsTheWord : decode 0x8AB5#16 = .instr (.subReg 0xA#4 0xB#4) := by decide

theorem witness_FetchIsBigEndian_read : State.reset.pc.toNat ≤ 0xFFE ∧ (State.reset.setPc 0xFFE#16).pc.toNat ≤ 0xFFE := by
  decide
theorem witness_FetchIsBigEndian_host :
    (State.reset.setPc 0xFFE#16).mem.wf = true ∧ (State.reset.setPc 0xFFE#16).status = .idle ∧
    (State.reset.setPc 0xFFE#16).pc = zext16 0xFFE#12 ∧ (0xFFF#12).toNat = (0xFFE#12).toNat + 1 := by decide

theorem witness_FetchOutOfRangeFaults :
    ((State.reset.setPc 0xFFF#16).setStatus .running).status = .running ∧
    0xFFE < ((State.reset.setPc 0xFFF#16).setStatus .running).pc.toNat := by decide

theorem witness_StepRunsTheDecodedInstruction_instr :
    (started 0x6A7F).status = .running ∧ fetchWord (started 0x6A7F) = some 0x6A7F#16 ∧
    decode 0x6A7F#16 = .instr (.loadImm 0xA#4 0x7F#8) := by decide
theorem witness_StepRunsTheDecodedInstruction_unsupported :
    (started 0xFFFF).status = .running ∧ fetchWord (started 0xFFFF) = some 0xFFFF#16 ∧
    decode 0xFFFF#16 = .rejected .unsupported := by decide

theorem witness_NothingStepsOutsideRunning :
    State.reset.status = .idle ∧ (State.reset.setStatus .halted).Ended ∧ (State.reset.setStatus .fault).Ended :=
  ⟨rfl, .inl rfl, .inr rfl⟩
theorem witness_StepAlwaysAnswersANextState :
    (started 0x0000).status = .running ∧ (started 0x0000).status ≠ .idle ∧ State.reset.status ≠ .running := by decide

theorem witness_NextAddressOfEveryStep_fetched :
    (started 0x3000).status = .running ∧ fetchWord (started 0x3000) = some 0x3000#16 := by decide
theorem witness_NextAddressOfEveryStep_beyond :
    ((State.reset.setPc 0x1002#16).setStatus .running).status = .running ∧
    0xFFE < ((State.reset.setPc 0x1002#16).setStatus .running).pc.toNat := by decide

/-- A step from RUNNING ends in HALTED, on each of the four conditions in FAULT with its cause, and on an instruction in
RUNNING, a RETURN and a CALL at the bounds of a stack that allows them included. -/
theorem witness_RunEndsExactlyOnHaltOrAFatalCondition :
    (started 0x0000).status = .running ∧
    (after 0x0000 State.reset).map (·.status) = some .halted ∧
    (afterAt 0xFFF#16).map (fun t => (t.status, t.cause)) = some (.fault, .fetchOutOfRange) ∧
    (after 0x5011 State.reset).map (fun t => (t.status, t.cause)) = some (.fault, .unsupportedOpcode) ∧
    (after 0x00EE State.reset).map (fun t => (t.status, t.cause)) = some (.fault, .stackUnderflow) ∧
    (after 0x2300 (called (List.replicate 16 0x0AA#16))).map (fun t => (t.status, t.cause)) = some (.fault, .stackOverflow) ∧
    (after 0x00E0 State.reset).map (·.status) = some .running ∧
    (after 0x00EE (called [0x004#16])).map (·.status) = some .running ∧
    (after 0x2300 (called (List.replicate 15 0x0AA#16))).map (·.status) = some .running := by decide

theorem witness_HaltEndsTheRun :
    (started 0x0000).status = .running ∧ (started 0x0000).pc.toNat ≤ 0xFFE ∧
    memRead (started 0x0000).pc.toNat (started 0x0000) = some 0x00#8 ∧
    memRead ((started 0x0000).pc.toNat + 1) (started 0x0000) = some 0x00#8 := by decide

theorem witness_ClearChangesNothing :
    (started 0x00E0).status = .running ∧ fetchWord (started 0x00E0) = some 0x00E0#16 := by decide

theorem witness_ReturnPopsThePcOrUnderflows_pop :
    0 < (called [0x004#16]).sp.val ∧ (0 : Fin 16).val = (called [0x004#16]).sp.val - 1 := by decide
theorem witness_ReturnPopsThePcOrUnderflows_full :
    0 < (called (List.replicate 16 0x004#16)).sp.val ∧
    (15 : Fin 16).val = (called (List.replicate 16 0x004#16)).sp.val - 1 := by decide
theorem witness_ReturnPopsThePcOrUnderflows_empty : State.reset.sp.val = 0 := by decide

theorem witness_CallPushesThePcOrOverflows_push :
    State.reset.sp.val < 16 ∧ (called (List.replicate 15 0x004#16)).sp.val < 16 := by decide
theorem witness_CallPushesThePcOrOverflows_full : (called (List.replicate 16 0x004#16)).sp.val = 16 := by decide

/-- The state after the CALL is itself one with the stack the CALL left. -/
theorem witness_CallThenReturnComesBack :
    State.reset.sp.val < 16 ∧
    exec (.call 0x100#12) State.reset = .next ((State.reset.push State.reset.pc).setPc 0x100#16) :=
  ⟨by decide, rfl⟩

theorem witness_JumpToItselfRunsForever :
    (started 0x1000).status = .running ∧ fetchWord (started 0x1000) = some (0x1#4 ++ 0x000#12) ∧
    (started 0x1000).pc.toNat = (0x000#12).toNat := by decide

theorem witness_SkipIfEqualReg_other_nibble : (0x1#4 : BitVec 4) ≠ 0x0#4 := by decide
theorem witness_AddRegWritesSumThenCarry : (0xE#4 : Reg) ≠ 0xF#4 := by decide
theorem witness_SubRegWritesFlagThenDifference : (0x0#4 : Reg) ≠ 0xF#4 := by decide

theorem witness_OnlyListedRegistersAreWritten :
    exec (.addReg 0 1) State.reset = .next ((State.reset.writeV 0 0).writeV VF 0) := rfl
theorem witness_UnreadRegistersReachNothing : (0xF#4 : Reg) ∉ regsRead (.addReg 0 1) := by decide
theorem witness_UnreadRegistersReachNothing_unwritten : (0x7#4 : Reg) ∉ regsRead (.ret) := by decide

theorem witness_VfIsWrittenByTwoInstructionsOrAsDestination :
    exec (.loadImm 0xF#4 0x01#8) State.reset = .next (State.reset.writeV 0xF#4 0x01#8) ∧
    (State.reset.writeV 0xF#4 0x01#8).readV 0xF#4 ≠ State.reset.readV 0xF#4 ∧ (0x0#4 : Reg) ≠ 0xF#4 :=
  ⟨rfl, by decide, by decide⟩

theorem witness_MemoryIsOnlyReadByFetch :
    fetchWord { started 0x6A7F with mem := (started 0x6A7F).mem.write 0x300 0x55#8 } = fetchWord (started 0x6A7F) := by decide

theorem witness_StackIsSeenOnlyByCallAndReturn :
    (Instr.jump 0x000#12 ≠ .ret) ∧ ∀ nnn, Instr.jump 0x000#12 ≠ .call nnn :=
  ⟨by decide, fun _ => Instr.noConfusion⟩

theorem witness_SlotsAreWrittenByCallAlone :
    exec (.call 0x100#12) (State.reset.setPc 0x002#16) =
      .next (((State.reset.setPc 0x002#16).push 0x002#16).setPc 0x100#16) ∧
    (((State.reset.setPc 0x002#16).push 0x002#16).setPc 0x100#16).slot 0 ≠ (State.reset.setPc 0x002#16).slot 0 :=
  ⟨rfl, by decide⟩

theorem witness_FaultRecordIsWrittenOnFaultEntryAlone :
    step (started 0x00EE) = .next (raiseFatal .stackUnderflow 0x0000#16 0x00EE#16 (started 0x00EE).advance) ∧
    (raiseFatal .stackUnderflow 0x0000#16 0x00EE#16 (started 0x00EE).advance).cause ≠ (started 0x00EE).cause :=
  ⟨rfl, by decide⟩

theorem witness_StackUnderflowIsRecorded :
    (started 0x00EE).status = .running ∧ fetchWord (started 0x00EE) = some 0x00EE#16 ∧ (started 0x00EE).sp.val = 0 := by decide

theorem witness_UnsupportedOpcodeIsRecorded :
    (started 0x8016).status = .running ∧ fetchWord (started 0x8016) = some 0x8016#16 ∧
    ∀ r ∈ opcodeTable, r.matchesWord 0x8016#16 = false := by decide

theorem witness_StackOverflowIsRecorded :
    ((called (List.replicate 16 0x002#16)).withFetchWord 16 0x2000).status = .running ∧
    fetchWord ((called (List.replicate 16 0x002#16)).withFetchWord 16 0x2000) = some (0x2#4 ++ 0x000#12) ∧
    ((called (List.replicate 16 0x002#16)).withFetchWord 16 0x2000).sp.val = 16 := by decide

theorem witness_FaultEntryWritesNothingElse_fetched :
    (started 0xFFFF).status = .running ∧ fetchWord (started 0xFFFF) = some 0xFFFF#16 ∧
    (after 0xFFFF State.reset).map (·.status) = some .fault := by decide
theorem witness_FaultEntryWritesNothingElse_not_fetched :
    fetchWord ((State.reset.setPc 0xFFF#16).setStatus .running) = none ∧
    (afterAt 0xFFF#16).map (·.status) = some .fault := by decide

/-- A started machine that meets the invariant, about to CALL. -/
theorem witness_EveryStepKeepsTheMachineInvariant :
    (started 0x2100).Inv ∧ step (started 0x2100) = .next (((started 0x2100).advance.push 0x002#16).setPc 0x100#16) := by
  exact ⟨⟨by decide, by decide, by decide, fun h => absurd h (by decide), by decide, by decide⟩, rfl⟩

theorem witness_EveryHostMoveKeepsTheMachineInvariant :
    (regs [(3, 0x42)]).Inv ∧ hostMove (.loadReg 3 0x42) State.reset = some (regs [(3, 0x42)]) := by
  exact ⟨⟨by decide, by decide, by decide, fun h => absurd h (by decide), by decide, by decide⟩, rfl⟩

theorem witness_ReachableStatesKeepPcInRange : Reachable (State.reset.setStatus .running) :=
  .host .start _ _ .reset rfl

theorem witness_HostLoadsAndStartsInIdleAlone :
    State.reset.mem.wf = true ∧ State.reset.status = .idle ∧ (started 0x0000).status ≠ .idle ∧
    HostMove.start ≠ .reset := by decide

theorem witness_LoadsThenStartGiveALaunchState :
    ∀ m ∈ [HostMove.loadByte 0x000#12 0x21#8, HostMove.loadReg 0xF#4 0x01#8], m ≠ .reset ∧ m ≠ .start := by decide

/-- The last odd address with both bytes, at the bound of the clause. -/
theorem witness_ConservativeVariantOnlyStopsMore_odd :
    ((State.reset.setPc 0xFFD#16).setStatus .running).status = .running ∧
    ((State.reset.setPc 0xFFD#16).setStatus .running).pc.toNat % 2 = 1 ∧
    ((State.reset.setPc 0xFFD#16).setStatus .running).pc.toNat ≤ 0xFFE := by decide
/-- With both parameters set, at an even address: no odd fetch stops before the operands. -/
theorem witness_ConservativeVariantOnlyStopsMore_vf :
    (started 0x80F5).status = .running ∧ (started 0x80F5).pc.toNat % 2 ≠ 1 ∧ fetchWord (started 0x80F5) = some 0x80F5#16 ∧
    decode 0x80F5#16 = .instr (.subReg 0x0#4 0xF#4) ∧ decode 0x8F14#16 = .instr (.addReg 0xF#4 0x1#4) := by decide

theorem witness_PlacedInstructionIsTheOneThatRuns : State.reset.mem.wf = true := by decide

end Sys2Proof.Tests
end

section
/-! SUPPORT. Proofs of the family spec/10_state.md: the next address of every step (R30) and the writes to `VF` (R25). -/

namespace Sys2Proof.Machine

/-! ### The next address (R30) -/

/-- R150: a skip after the fetch leaves `A + 4` when it is taken and `A + 2` when it is not. -/
theorem advance_skipIf_pc (s : State) (c : Bool) :
    (s.advance.skipIf c).pc = if c then s.pc + 4#16 else s.pc + 2#16 := by
  have h : s.pc + 2#16 + 2#16 = s.pc + 4#16 := BitVec.add_assoc ..
  simp [skipIf_eq, h]

/-- R30, the rows of the instructions: the meaning, run after the fetch, leaves the `pc` of the table. -/
theorem exec_advance_pc (i : Instr) (s : State) :
    ∃ t, exec i s.advance = .next t ∧ t.pc = nextAddress s (.instr i) := by
  cases i with
  | ret =>
    by_cases h : s.sp.val = 0
    · exact ⟨raiseFatalIn .stackUnderflow .ret s.advance, by simp [exec, execRet, State.stackEmpty, h],
        by simp [nextAddress, h]⟩
    · exact ⟨s.advance.pop.setPc s.advance.top, by simp [exec, execRet, State.stackEmpty, h],
        by simp [nextAddress, h, State.top]⟩
  | call nnn =>
    by_cases h : s.sp.val = 16
    · exact ⟨raiseFatalIn .stackOverflow (.call nnn) s.advance, by simp [exec, execCall, State.stackFull, h],
        by simp [nextAddress, h]⟩
    · exact ⟨(s.advance.push s.advance.pc).setPc (zext16 nnn), by simp [exec, execCall, State.stackFull, h],
        by simp [nextAddress, h, zext16]⟩
  | skipEqImm x kk => exact ⟨_, rfl, by simp [advance_skipIf_pc, nextAddress, aluEq, State.operand]⟩
  | skipNeImm x kk => exact ⟨_, rfl, by simp [advance_skipIf_pc, nextAddress, aluEq, State.operand]⟩
  | skipEqReg x y => exact ⟨_, rfl, by simp [advance_skipIf_pc, nextAddress, aluEq, State.operand]⟩
  | jump nnn => exact ⟨_, rfl, rfl⟩
  | halt | clear => exact ⟨_, rfl, rfl⟩
  | loadImm | addImm | loadReg | orReg | andReg | xorReg | addReg | subReg => exact ⟨_, rfl, rfl⟩

/-- Settles O14: by what the step fetched, with R30's rows for the instructions from `exec_advance_pc`. -/
theorem nextAddressOfEveryStep : Obligations.NextAddressOfEveryStep := by
  intro s hrun
  obtain ⟨hstopped, -⟩ | ⟨-, hfetch, hstep⟩ | ⟨w, -, hfetch, hdec, hstep⟩ | ⟨w, i, -, hfetch, hdec, hstep⟩ := step_cases s
  · exact absurd hrun hstopped
  · exact ⟨fun w hw => by simp [hfetch] at hw, fun _ => ⟨_, hstep, rfl⟩⟩
  · refine ⟨fun w' hw' => ?_, fun hout => by have := pc_le_of_fetch hfetch; omega⟩
    obtain rfl : w = w' := by simpa [hfetch] using hw'
    exact ⟨_, hstep, by simp [hdec, nextAddress]⟩
  · refine ⟨fun w' hw' => ?_, fun hout => by have := pc_le_of_fetch hfetch; omega⟩
    obtain rfl : w = w' := by simpa [hfetch] using hw'
    rw [hstep, hdec]
    exact exec_advance_pc i s

/-! ### The writes to `VF` (R25) -/

/-- R175: the carry as a number. -/
theorem carryFlag_toNat (a b : Byte) : (carryFlag a b).toNat = if a.toNat + b.toNat > 255 then 1 else 0 := by
  unfold carryFlag; split <;> rfl

/-- R176: the comparison as a number. -/
theorem greaterFlag_toNat (a b : Byte) : (greaterFlag a b).toNat = if a.toNat > b.toNat then 1 else 0 := by
  unfold greaterFlag; split <;> rfl

/-- An instruction that names no destination keeps every register. -/
theorem exec_readV_of_destReg_none {i : Instr} {s t : State} (hd : destReg i = none) (h : exec i s = .next t) (r : Reg) :
    t.readV r = s.readV r := by
  obtain ⟨u, hu, hcases⟩ := exec_cases i s
  obtain rfl : u = t := by simpa [h] using hu.symm
  obtain ⟨_, _, x, hx⟩ | ⟨p, rfl, _⟩ | ⟨_, rfl⟩ | ⟨_, _, rfl⟩ | ⟨nnn, _, _, rfl⟩ | ⟨_, _, rfl⟩ | ⟨nnn, _, _, rfl⟩ := hcases
  · simp [hd] at hx
  all_goals simp

/-- An instruction other than ADD-REG and SUB-REG that names a destination makes one register write, to it. -/
theorem exec_eq_writeV_destReg {i : Instr} {x : Reg} (hd : destReg i = some x) (hadd : ∀ x y, i ≠ .addReg x y)
    (hsub : ∀ x y, i ≠ .subReg x y) (s : State) : ∃ b, exec i s = .next (s.writeV x b) := by
  cases i with
  | halt | clear | ret | jump | call | skipEqImm | skipNeImm | skipEqReg => cases hd
  | loadImm | addImm | loadReg | orReg | andReg | xorReg => cases hd; exact ⟨_, rfl⟩
  | addReg x y => exact absurd rfl (hadd x y)
  | subReg x y => exact absurd rfl (hsub x y)

/-- R25, the side effects: where `VF` changes, the instruction is ADD-REG or SUB-REG or names `VF` as its destination. -/
theorem exec_changes_vf {i : Instr} {s t : State} (h : exec i s = .next t) (hne : t.readV 0xF#4 ≠ s.readV 0xF#4) :
    (∃ x y, i = .addReg x y) ∨ (∃ x y, i = .subReg x y) ∨ destReg i = some 0xF#4 := by
  by_contra! ⟨hadd, hsub, hdest⟩
  cases hd : destReg i with
  | none => exact hne (exec_readV_of_destReg_none hd h _)
  | some x =>
    obtain ⟨b, hb⟩ := exec_eq_writeV_destReg hd hadd hsub s
    obtain rfl : s.writeV x b = t := by simpa [h] using hb.symm
    have hx : 0xF#4 ≠ x := by rintro rfl; exact hdest hd
    exact hne (by rw [readV_writeV, if_neg hx])

/-- R25, R175: ADD-REG leaves the carry in `VF`, whatever its destination. -/
theorem exec_addReg_vf (x y : Reg) (s : State) :
    ∃ t, exec (.addReg x y) s = .next t ∧ t.readV 0xF#4 = carryFlag (s.readV x) (s.readV y) :=
  ⟨_, rfl, readV_writeV_self _ VF _⟩

/-- R25, R176: SUB-REG leaves the comparison in `VF`, unless the difference goes there. -/
theorem exec_subReg_vf (x y : Reg) (s : State) (hx : x ≠ 0xF#4) :
    ∃ t, exec (.subReg x y) s = .next t ∧ t.readV 0xF#4 = greaterFlag (s.readV x) (s.readV y) := by
  refine ⟨_, rfl, ?_⟩
  rw [readV_writeV, if_neg hx.symm]
  exact readV_writeV_self _ VF _

/-- Settles O36: the change of `VF` from `exec_changes_vf`, the flags as numbers, and the destination read back. -/
theorem vfIsWrittenByTwoInstructionsOrAsDestination : Obligations.VfIsWrittenByTwoInstructionsOrAsDestination := by
  refine ⟨fun i s t h hne => exec_changes_vf h hne, fun x y s => ?_, fun x y s hx => ?_, ?_, ?_, ?_, ?_, ?_, ?_⟩
  · obtain ⟨t, ht, hvf⟩ := exec_addReg_vf x y s
    exact ⟨t, ht, by rw [hvf, carryFlag_toNat]⟩
  · obtain ⟨t, ht, hvf⟩ := exec_subReg_vf x y s hx
    exact ⟨t, ht, by rw [hvf, greaterFlag_toNat]⟩
  all_goals exact fun _ s => ⟨_, rfl, readV_writeV_self s ..⟩

end Sys2Proof.Machine
end

section
/-! SUPPORT. Proofs of the family spec/20_memory.md: the byte order of the fetch (R52), and memory as what the fetch alone reads
and no step writes (R56). -/

namespace Sys2Proof.Machine

/-! ### The fetched word is big-endian (R52) -/

theorem memRead_of_lt (s : State) {a : Nat} (h : a < Config.memSize) : memRead a s = some (s.mem.read a) := if_pos h

/-- R52: the fetch joins the bytes at `pc` and `pc + 1` wherever both exist. -/
theorem fetchWord_of_memRead {s : State} {b0 b1 : Byte} (h0 : memRead s.pc.toNat s = some b0)
    (h1 : memRead (s.pc.toNat + 1) s = some b1) : fetchWord s = some (wordOfBytes b0 b1) := by
  have hpc : ¬ Config.lastFetch < s.pc.toNat := by
    intro hlt
    have hout : ¬ s.pc.toNat + 1 < Config.memSize := by unfold Config.lastFetch at hlt; unfold Config.memSize; omega
    simp [memRead, hout] at h1
  simp [fetchWord, hpc, h0, h1]

/-- R110: MemRead after the host has loaded one byte. -/
theorem memRead_loadByte {s : State} (h : s.mem.wf = true) (a : Addr) (b : Byte) (c : Nat) :
    memRead c (loadByte a b s) = if c = a.toNat then some b else memRead c s :=
  memRead_write h a.isLt b c

theorem loadByte_mem_wf {s : State} (h : s.mem.wf = true) (a : Addr) (b : Byte) : (loadByte a b s).mem.wf = true :=
  wf_write h a.isLt b

/-- R110: in IDLE the host loads any two bytes. -/
theorem hostMoves_loadByte_loadByte {s : State} (h : s.status = .idle) (a c : Addr) (b d : Byte) :
    hostMoves [.loadByte a b, .loadByte c d] s = some (loadByte c d (loadByte a b s)) := by
  simp [hostMoves, hostMove, h]

/-- R52, R110: a word loaded high byte first at `pc` and `pc + 1` is the word fetched. -/
theorem fetchWord_loadByte_loadByte {s : State} (hwf : s.mem.wf = true) (w : Word) {p q : Addr} (hp : s.pc.toNat = p.toNat)
    (hq : q.toNat = p.toNat + 1) : fetchWord (loadByte q (lowByte w) (loadByte p (highByte w) s)) = some w := by
  have hread (c : Nat) : memRead c (loadByte q (lowByte w) (loadByte p (highByte w) s)) =
      if c = q.toNat then some (lowByte w) else if c = p.toNat then some (highByte w) else memRead c s := by
    rw [memRead_loadByte (loadByte_mem_wf hwf p _), memRead_loadByte hwf]
  rw [fetchWord_of_memRead (b0 := highByte w) (b1 := lowByte w), wordOfBytes_high_low]
  all_goals simp [hread, hp, hq]

/-- Settles O9: the fetch from the two bytes MemRead gives, and the host's two loads read back by it. -/
theorem fetchIsBigEndian : Obligations.FetchIsBigEndian := by
  refine ⟨fun s hpc => ?_, fun s w p q hwf hidle hp hq => ?_⟩
  · have h0 := memRead_of_lt s (a := s.pc.toNat) (by unfold Config.memSize; omega)
    have h1 := memRead_of_lt s (a := s.pc.toNat + 1) (by unfold Config.memSize; omega)
    exact ⟨_, _, _, h0, h1, fetchWord_of_memRead h0 h1, wordOfBytes_toNat ..⟩
  · have hpc : s.pc.toNat = p.toNat := by
      rw [hp, zext16, BitVec.toNat_setWidth_of_le (by omega)]
    exact ⟨_, hostMoves_loadByte_loadByte hidle .., fetchWord_loadByte_loadByte hwf w hpc hq⟩

/-! ### Memory is read by the fetch alone and never written (R56) -/

/-- A transition keeps the memory of `s`, and with `m` in its place goes to the same state but for `m`, kept in turn. -/
def IgnoresMemory (f : State → Host.Outcome State Fault Refusal) (s : State) (m : Memory) : Prop :=
  ∃ t, f s = .next t ∧ t.mem = s.mem ∧ f { s with mem := m } = .next { t with mem := m }

/-- A skip decides on its condition alone. -/
theorem skipIf_ignoresMemory (c : Bool) (s : State) (m : Memory) : IgnoresMemory (fun s => .next (s.skipIf c)) s m := by
  cases c <;> exact ⟨_, rfl, rfl, rfl⟩

/-- A push depends on the stack and `sp` alone. -/
theorem push_withMem (s : State) (m : Memory) (t : Word) : { s with mem := m }.push t = { s.push t with mem := m } := by
  unfold State.push; split <;> rfl

/-- R130: RETURN on an empty stack. -/
theorem exec_ret_of_empty {s : State} (h : s.sp.val = 0) :
    exec .ret s = .next (raiseFatalIn .stackUnderflow .ret s) := by
  simp [exec, execRet, State.stackEmpty, h]

/-- R130: RETURN with a return address on the stack. -/
theorem exec_ret_of_nonempty {s : State} (h : s.sp.val ≠ 0) : exec .ret s = .next (s.pop.setPc s.top) := by
  simp [exec, execRet, State.stackEmpty, h]

/-- R132, R135: CALL on a full stack. -/
theorem exec_call_of_full {s : State} (nnn : Addr) (h : s.sp.val = 16) :
    exec (.call nnn) s = .next (raiseFatalIn .stackOverflow (.call nnn) s) := by
  simp [exec, execCall, State.stackFull, h]

/-- R132: CALL with a free slot. -/
theorem exec_call_of_not_full {s : State} (nnn : Addr) (h : s.sp.val ≠ 16) :
    exec (.call nnn) s = .next ((s.push s.pc).setPc (zext16 nnn)) := by
  simp [exec, execCall, State.stackFull, h]

/-- R56: no instruction reads or writes memory. RETURN and CALL test the stack, the skips compare registers, and the rest write
registers, `pc` or the run state. -/
theorem exec_ignoresMemory (i : Instr) (s : State) (m : Memory) : IgnoresMemory (exec i) s m := by
  cases i with
  | ret =>
    by_cases h : s.sp.val = 0
    · exact ⟨_, exec_ret_of_empty h, rfl, exec_ret_of_empty h⟩
    · exact ⟨_, exec_ret_of_nonempty h, rfl, exec_ret_of_nonempty h⟩
  | call nnn =>
    by_cases h : s.sp.val = 16
    · exact ⟨_, exec_call_of_full nnn h, rfl, exec_call_of_full nnn h⟩
    · obtain ⟨-, hmem, -⟩ := push_frame s s.pc
      refine ⟨_, exec_call_of_not_full nnn h, hmem, ?_⟩
      rw [exec_call_of_not_full (s := { s with mem := m }) nnn h, push_withMem]
      rfl
  | skipEqImm | skipNeImm | skipEqReg => exact skipIf_ignoresMemory _ s m
  | halt | clear | jump => exact ⟨_, rfl, rfl, rfl⟩
  | loadImm | addImm | loadReg | orReg | andReg | xorReg | addReg | subReg => exact ⟨_, rfl, rfl, rfl⟩

/-- R56: what follows the fetch depends on the fetched word, not on memory. -/
theorem decodeAndExec_ignoresMemory (w : Word) (s : State) (m : Memory) : IgnoresMemory (decodeAndExec w) s m := by
  unfold decodeAndExec
  cases decode w with
  | instr i => exact exec_ignoresMemory i s m
  | rejected why => exact ⟨_, rfl, rfl, rfl⟩

/-- R100: outside RUNNING a step changes nothing. -/
theorem step_of_not_running {s : State} (h : s.status ≠ .running) : step s = .next s := by
  unfold step engineStep
  split
  · contradiction
  all_goals rfl

/-- R203: in RUNNING, a step whose fetch is out of range. -/
theorem step_of_fetch_none {s : State} (hrun : s.status = .running) (hf : fetchWord s = none) :
    step s = .next (raiseFatal .fetchOutOfRange s.pc 0x0000#16 s) := by
  simp [step, engineStep, runStep, hrun, hf]

/-- R105: in RUNNING, a step decodes and runs the word it fetched. -/
theorem step_of_fetch {s : State} {w : Word} (hrun : s.status = .running) (hf : fetchWord s = some w) :
    step s = decodeAndExec w s.advance := by
  simp [step, engineStep, runStep, hrun, hf]

/-- R56: a step that fetches the same word from another memory does the same with it. -/
theorem step_ignoresMemory {s : State} {m : Memory} (h : fetchWord { s with mem := m } = fetchWord s) :
    IgnoresMemory step s m := by
  by_cases hrun : s.status = .running
  · cases hf : fetchWord s with
    | none => exact ⟨_, step_of_fetch_none hrun hf, rfl, step_of_fetch_none hrun (h.trans hf)⟩
    | some w =>
      obtain ⟨t, ht, hmem, ht'⟩ := decodeAndExec_ignoresMemory w s.advance m
      have hstep := step_of_fetch (s := { s with mem := m }) hrun (h.trans hf)
      exact ⟨t, (step_of_fetch hrun hf).trans ht, hmem, hstep.trans ht'⟩
  · exact ⟨s, step_of_not_running hrun, rfl, step_of_not_running hrun⟩

/-- Settles O37: `exec_ignoresMemory`, `step_ignoresMemory`, and the destination of the two loads read back. -/
theorem memoryIsOnlyReadByFetch : Obligations.MemoryIsOnlyReadByFetch :=
  ⟨exec_ignoresMemory, fun _ _ => step_ignoresMemory,
    fun x kk s => ⟨_, rfl, readV_writeV_self s x kk⟩, fun x _ s => ⟨_, rfl, readV_writeV_self s x _⟩⟩

end Sys2Proof.Machine
end

section
/-! SUPPORT. Proofs of the family spec/30_encoding.md: the fields of a word (R71) and the opcode map (R74). -/

namespace Sys2Proof

/-! ### The fields of a word (R71) -/

/-- R71: the first nibble is all that lies above bit 11. -/
theorem op_toNat (w : Word) : (fieldsOf w).op.toNat = w.toNat / 2 ^ 12 := by
  have := w.isLt
  rw [fieldsOf, field_toNat]
  omega

/-- R71: a field at the low end of the word is a remainder. -/
theorem lowField_toNat (w : Word) (len : Nat) : (w.extractLsb' 0 len).toNat = w.toNat % 2 ^ len := by
  rw [field_toNat, Nat.pow_zero, Nat.div_one]

/-- R71: `kk = {y, n}`. -/
theorem kk_eq_y_append_n (w : Word) : (fieldsOf w).kk = (fieldsOf w).y ++ (fieldsOf w).n := by
  apply BitVec.eq_of_toNat_eq
  simp only [fieldsOf, append_toNat, field_toNat]
  omega

/-- R71: `nnn = {x, kk}`. -/
theorem nnn_eq_x_append_kk (w : Word) : (fieldsOf w).nnn = (fieldsOf w).x ++ (fieldsOf w).kk := by
  apply BitVec.eq_of_toNat_eq
  simp only [fieldsOf, append_toNat, field_toNat]
  omega

/-- Settles O2: the number of each field from `field_toNat`, and the two overlaps. -/
theorem fieldsAreTheirBits : Obligations.FieldsAreTheirBits := fun w =>
  ⟨op_toNat w, field_toNat w 8 4, field_toNat w 4 4, lowField_toNat w 8, lowField_toNat w 4, lowField_toNat w 12,
    kk_eq_y_append_n w, nnn_eq_x_append_kk w⟩

/-! ### A decoded word is its instruction's word (R77) -/

/-- R71: `op` and `nnn` hold every bit of the word. -/
theorem wordNNN_fieldsOf (w : Word) : wordNNN (fieldsOf w).op (fieldsOf w).nnn = w := by
  apply BitVec.eq_of_toNat_eq
  simp only [wordNNN_toNat, fieldsOf, field_toNat]
  omega

/-- R71: `op`, `x` and `kk` hold every bit of the word. -/
theorem wordXKK_fieldsOf (w : Word) : wordXKK (fieldsOf w).op (fieldsOf w).x (fieldsOf w).kk = w := by
  apply BitVec.eq_of_toNat_eq
  simp only [wordXKK_toNat, fieldsOf, field_toNat]
  omega

/-- R71: the four nibbles hold every bit of the word. -/
theorem wordXYN_fieldsOf (w : Word) : wordXYN (fieldsOf w).op (fieldsOf w).x (fieldsOf w).y (fieldsOf w).n = w := by
  apply BitVec.eq_of_toNat_eq
  simp only [wordXYN_toNat, fieldsOf, field_toNat]
  omega

/-- R170: the word of an instruction of the family 0x8xyN has the nibbles it was decoded from. -/
theorem encode_of_decodeAlu {f : Fields} {i : Instr} (h : decodeAlu f = .instr i) :
    encode i = wordXYN 0x8#4 f.x f.y f.n := by
  unfold decodeAlu at h
  split at h
  case h_7 => cases h
  all_goals next hn => cases h; rw [hn]; rfl

/-- R77: a word the families decode is the word of its instruction. -/
theorem encode_of_decodeFamily {w : Word} {i : Instr} (h : decodeFamily (fieldsOf w) = .instr i) : encode i = w := by
  unfold decodeFamily at h
  split at h
  case h_1 hop | h_2 hop => cases h; rw [encode, ← hop, wordNNN_fieldsOf]
  case h_3 hop | h_4 hop | h_6 hop | h_7 hop => cases h; rw [encode, ← hop, wordXKK_fieldsOf]
  case h_5 hop =>
    split at h
    next hn => cases h; rw [encode, ← hop, ← hn, wordXYN_fieldsOf]
    next => cases h
  case h_8 hop => rw [encode_of_decodeAlu h, ← hop, wordXYN_fieldsOf]
  case h_9 => cases h

/-- R77: a word that decodes to an instruction is that instruction's word. -/
theorem encode_of_decode {w : Word} {i : Instr} (h : decode w = .instr i) : encode i = w := by
  unfold decode at h
  split_ifs at h with h0 hE0 hEE
  · cases h; exact h0.symm
  · cases h; exact hE0.symm
  · cases h; exact hEE.symm
  · exact encode_of_decodeFamily h

/-! ### The opcode map (R74) -/

/-- R74: the row claims the word exactly when the word decodes to the instruction. -/
def RowDecodes (w : Word) (r : OpcodeRow) (i : Instr) : Prop := w &&& r.mask = r.value ↔ decode w = .instr i

/-- R74: the instructions of the sixteen rows, in the table's order, with their operands from the fields. -/
def rowInstrs (f : Fields) : List Instr :=
  [ .halt, .clear, .ret, .jump f.nnn, .call f.nnn, .skipEqImm f.x f.kk, .skipNeImm f.x f.kk, .skipEqReg f.x f.y,
    .loadImm f.x f.kk, .addImm f.x f.kk, .loadReg f.x f.y, .orReg f.x f.y, .andReg f.x f.y, .xorReg f.x f.y,
    .addReg f.x f.y, .subReg f.x f.y ]

/-- A decoded word has the masked bits of its instruction's word. -/
theorem and_of_decode {w m v : Word} {i : Instr} (h : decode w = .instr i) (hm : encode i &&& m = v) : w &&& m = v :=
  encode_of_decode h ▸ hm

/-- R75: the exact words have the first nibble 0x0, so a word with another first nibble is decoded by its family. -/
theorem decode_of_op_ne_zero {w : Word} (h : (fieldsOf w).op ≠ 0x0#4) : decode w = decodeFamily (fieldsOf w) := by
  have hne (v : Word) (hv : (fieldsOf v).op = 0x0#4) : w ≠ v := fun e => h (e ▸ hv)
  rw [decode, if_neg (hne _ rfl), if_neg (hne _ rfl), if_neg (hne _ rfl)]

/-- The mask 0xF000 leaves `op`. -/
theorem op_of_and_F000 {w : Word} {op : BitVec 4} (h : w &&& 0xF000#16 = BitVec.ofNat 16 (op.toNat * 4096)) :
    (fieldsOf w).op = op := by
  rw [← wordNNN_fieldsOf w, Laws.mask_nnn, ← BitVec.toNat_inj, BitVec.toNat_ofNat, BitVec.toNat_ofNat] at h
  apply BitVec.eq_of_toNat_eq
  omega

/-- The mask 0xF00F leaves `op` and `n`. -/
theorem op_n_of_and_F00F {w : Word} {op n : BitVec 4}
    (h : w &&& 0xF00F#16 = BitVec.ofNat 16 (op.toNat * 4096 + n.toNat)) : (fieldsOf w).op = op ∧ (fieldsOf w).n = n := by
  rw [← wordXYN_fieldsOf w, Laws.mask_xyn, ← BitVec.toNat_inj, BitVec.toNat_ofNat, BitVec.toNat_ofNat] at h
  constructor <;> apply BitVec.eq_of_toNat_eq <;> omega

/-- R74: a row with an exact word. -/
theorem rowDecodes_exact {w v : Word} {i : Instr} (name : String) (hv : decode v = .instr i) :
    RowDecodes w ⟨name, 0xFFFF#16, v⟩ i :=
  ⟨fun h => by rw [← and_FFFF w, h, hv], fun h => and_of_decode h (by rw [and_FFFF, encode_of_decode hv])⟩

/-- R74: a row that fixes `op`, whose family gives its instruction. -/
theorem rowDecodes_op {w : Word} {i : Instr} (name : String) (op : BitVec 4) (hop : op ≠ 0x0#4)
    (hfam : decodeFamily { fieldsOf w with op := op } = .instr i)
    (hmask : encode i &&& 0xF000#16 = BitVec.ofNat 16 (op.toNat * 4096)) :
    RowDecodes w ⟨name, 0xF000#16, BitVec.ofNat 16 (op.toNat * 4096)⟩ i := by
  refine ⟨fun h => ?_, fun h => and_of_decode h hmask⟩
  obtain rfl := op_of_and_F000 h
  exact (decode_of_op_ne_zero hop).trans hfam

/-- R74: a row that fixes `op` and `n`, whose family gives its instruction. -/
theorem rowDecodes_op_n {w : Word} {i : Instr} (name : String) (op n : BitVec 4) (hop : op ≠ 0x0#4)
    (hfam : decodeFamily { fieldsOf w with op := op, n := n } = .instr i)
    (hmask : encode i &&& 0xF00F#16 = BitVec.ofNat 16 (op.toNat * 4096 + n.toNat)) :
    RowDecodes w ⟨name, 0xF00F#16, BitVec.ofNat 16 (op.toNat * 4096 + n.toNat)⟩ i := by
  refine ⟨fun h => ?_, fun h => and_of_decode h hmask⟩
  obtain ⟨rfl, rfl⟩ := op_n_of_and_F00F h
  exact (decode_of_op_ne_zero hop).trans hfam

/-- R74: every row of the table claims exactly the words of its instruction. -/
theorem opcodeTable_rowDecodes (w : Word) : List.Forall₂ (RowDecodes w) opcodeTable (rowInstrs (fieldsOf w)) :=
  .cons (rowDecodes_exact "HALT" rfl) <|
  .cons (rowDecodes_exact "CLEAR" rfl) <|
  .cons (rowDecodes_exact "RETURN" rfl) <|
  .cons (rowDecodes_op "JUMP" 0x1#4 (by decide) rfl (Laws.mask_nnn ..)) <|
  .cons (rowDecodes_op "CALL" 0x2#4 (by decide) rfl (Laws.mask_nnn ..)) <|
  .cons (rowDecodes_op "SKIP-IF-EQUAL-IMM" 0x3#4 (by decide) rfl (Laws.mask_xkk ..)) <|
  .cons (rowDecodes_op "SKIP-IF-NOT-EQUAL-IMM" 0x4#4 (by decide) rfl (Laws.mask_xkk ..)) <|
  .cons (rowDecodes_op_n "SKIP-IF-EQUAL-REG" 0x5#4 0x0#4 (by decide) rfl (Laws.mask_xyn ..)) <|
  .cons (rowDecodes_op "LOAD-IMM" 0x6#4 (by decide) rfl (Laws.mask_xkk ..)) <|
  .cons (rowDecodes_op "ADD-IMM" 0x7#4 (by decide) rfl (Laws.mask_xkk ..)) <|
  .cons (rowDecodes_op_n "LOAD-REG" 0x8#4 0x0#4 (by decide) rfl (Laws.mask_xyn ..)) <|
  .cons (rowDecodes_op_n "OR" 0x8#4 0x1#4 (by decide) rfl (Laws.mask_xyn ..)) <|
  .cons (rowDecodes_op_n "AND" 0x8#4 0x2#4 (by decide) rfl (Laws.mask_xyn ..)) <|
  .cons (rowDecodes_op_n "XOR" 0x8#4 0x3#4 (by decide) rfl (Laws.mask_xyn ..)) <|
  .cons (rowDecodes_op_n "ADD-REG" 0x8#4 0x4#4 (by decide) rfl (Laws.mask_xyn ..)) <|
  .cons (rowDecodes_op_n "SUB-REG" 0x8#4 0x5#4 (by decide) rfl (Laws.mask_xyn ..)) .nil

/-- R74: the word of every instruction matches a row of the table. -/
theorem encode_matches (i : Instr) : ∃ r ∈ opcodeTable, r.matchesWord (encode i) = true := by
  suffices Laws.EncodesInItsRow.Statement i from this.imp fun _ ⟨hr, _, hm⟩ => ⟨hr, hm⟩
  cases i with
  | halt => exact Laws.EncodesInItsRow.halt
  | clear => exact Laws.EncodesInItsRow.clear
  | ret => exact Laws.EncodesInItsRow.ret
  | jump nnn => exact Laws.EncodesInItsRow.jump nnn
  | call nnn => exact Laws.EncodesInItsRow.call nnn
  | skipEqImm x kk => exact Laws.EncodesInItsRow.skipEqImm x kk
  | skipNeImm x kk => exact Laws.EncodesInItsRow.skipNeImm x kk
  | skipEqReg x y => exact Laws.EncodesInItsRow.skipEqReg x y
  | loadImm x kk => exact Laws.EncodesInItsRow.loadImm x kk
  | addImm x kk => exact Laws.EncodesInItsRow.addImm x kk
  | loadReg x y => exact Laws.EncodesInItsRow.loadReg x y
  | orReg x y => exact Laws.EncodesInItsRow.orReg x y
  | andReg x y => exact Laws.EncodesInItsRow.andReg x y
  | xorReg x y => exact Laws.EncodesInItsRow.xorReg x y
  | addReg x y => exact Laws.EncodesInItsRow.addReg x y
  | subReg x y => exact Laws.EncodesInItsRow.subReg x y

/-- R78: no row claims a word that decodes to no instruction. -/
theorem matchesWord_of_rejected {w : Word} (h : decode w = .rejected .unsupported) :
    ∀ r ∈ opcodeTable, r.matchesWord w = false := by
  have hrow (r : OpcodeRow) (i : Instr) (hri : RowDecodes w r i) : r.matchesWord w = false ∧ True := by
    have hne : ¬ w &&& r.mask = r.value := fun hm => by cases h.symm.trans (hri.mp hm)
    exact ⟨beq_false_of_ne hne, trivial⟩
  exact ((List.forall₂_and_left _ _).mp ((opcodeTable_rowDecodes w).imp hrow)).1

/-- R74, R78: a word is no instruction exactly when no row claims it. -/
theorem no_row_matches_iff (w : Word) :
    (∀ r ∈ opcodeTable, r.matchesWord w = false) ↔ decode w = .rejected .unsupported := by
  refine ⟨fun hnone => ?_, matchesWord_of_rejected⟩
  cases h : decode w with
  | rejected why => rw [Machine.decode_rejected h]
  | instr i =>
    obtain ⟨r, hr, hm⟩ := encode_matches i
    rw [encode_of_decode h, hnone r hr] at hm
    cases hm

/-- Settles O5: the sixteen rows from `opcodeTable_rowDecodes`, read off one by one, and the rest from `no_row_matches_iff`. -/
theorem decodeFollowsTheOpcodeMap : Obligations.DecodeFollowsTheOpcodeMap := by
  intro w
  have hrows := opcodeTable_rowDecodes w
  simp only [opcodeTable, opcodeRowsFamilies, opcodeRowsAlu, List.cons_append, List.nil_append, rowInstrs, List.forall₂_cons,
    List.Forall₂.nil, and_true, RowDecodes, fieldsOf] at hrows
  simpa only [and_assoc] using And.intro hrows (no_row_matches_iff w)

end Sys2Proof
end

section
/-! SUPPORT. Proofs of the family spec/40_engine.md: the step as the meaning of the fetched word (R103). -/

namespace Sys2Proof.Machine

/-! ### Dispatch after the fetch (R103) -/

/-- R103: a fetched instruction runs in the state after the fetch. -/
theorem step_of_decode_instr {s : State} {w : Word} {i : Instr} (hrun : s.status = .running) (hf : fetchWord s = some w)
    (hd : decode w = .instr i) : step s = exec i s.advance := by
  rw [step_of_fetch hrun hf, decodeAndExec, hd]

/-- R103, R202: a fetched word that is no instruction is recorded with its own address, in the state after the fetch. -/
theorem step_of_decode_rejected {s : State} {w : Word} {why : Reject} (hrun : s.status = .running)
    (hf : fetchWord s = some w) (hd : decode w = .rejected why) :
    step s = .next (raiseFatal .unsupportedOpcode s.pc w s.advance) := by
  rw [step_of_fetch hrun hf, decodeAndExec, hd, advance_instrAddr]

/-- Settles O11: the step on either result of the decoder. -/
theorem stepRunsTheDecodedInstruction : Obligations.StepRunsTheDecodedInstruction := by
  intro s w hrun hf
  refine ⟨fun i hd => ?_, fun hd => ?_⟩
  · exact step_of_decode_instr hrun hf hd
  · exact ⟨_, step_of_decode_rejected hrun hf hd, raiseFatal_status .., raiseFatal_cause .., rfl⟩

end Sys2Proof.Machine
end

section
/-! SUPPORT. Proofs of the family spec/41_system.md: HALT (R120) and CLEAR (R121). -/

namespace Sys2Proof.Machine

/-! ### HALT (R120) -/

/-- R120: the exact word of HALT. -/
theorem decode_halt : decode 0x0000#16 = .instr .halt := rfl

/-- R120: HALT writes `status` alone. -/
theorem exec_halt (s : State) : exec .halt s = .next (s.setStatus .halted) := rfl

/-- R120, R52: two zero bytes at `pc` are the word of HALT. -/
theorem fetchWord_of_zero_bytes {s : State} (h0 : memRead s.pc.toNat s = some 0x00#8)
    (h1 : memRead (s.pc.toNat + 1) s = some 0x00#8) : fetchWord s = some 0x0000#16 :=
  fetchWord_of_memRead h0 h1

/-- R120: a step that fetches HALT ends the run with `pc` past the instruction. -/
theorem step_of_fetch_halt {s : State} (hrun : s.status = .running) (hf : fetchWord s = some 0x0000#16) :
    step s = .next (s.advance.setStatus .halted) := by
  rw [step_of_decode_instr hrun hf decode_halt, exec_halt]

/-- Settles O16: the frame from the fields `setStatus` keeps, and the step from the fetch of two zero bytes. -/
theorem haltEndsTheRun : Obligations.HaltEndsTheRun := by
  refine ⟨decode_halt, fun s => ?_, fun s hrun _ h0 h1 => ?_⟩
  · exact ⟨_, exec_halt s, setStatus_status .., setStatus_pc .., fun r _ => setStatus_readV s _ r,
      ⟨setStatus_sp .., setStatus_slot s _⟩, ⟨setStatus_cause .., setStatus_faultPc .., setStatus_faultOpcode ..⟩,
      setStatus_memRead s _⟩
  · exact ⟨_, step_of_fetch_halt hrun (fetchWord_of_zero_bytes h0 h1), setStatus_status .., advance_pc s⟩

/-! ### CLEAR (R121) -/

/-- R121: the exact word of CLEAR. -/
theorem decode_clear : decode 0x00E0#16 = .instr .clear := rfl

/-- R121: CLEAR changes nothing. -/
theorem exec_clear (s : State) : exec .clear s = .next s := rfl

/-- R121: a step that fetches CLEAR is the fetch alone. -/
theorem step_of_fetch_clear {s : State} (hrun : s.status = .running) (hf : fetchWord s = some 0x00E0#16) :
    step s = .next s.advance := by
  rw [step_of_decode_instr hrun hf decode_clear, exec_clear]

/-- Settles O17: the word, the meaning and the step of CLEAR. -/
theorem clearChangesNothing : Obligations.ClearChangesNothing :=
  ⟨decode_clear, exec_clear, fun _ => step_of_fetch_clear⟩

end Sys2Proof.Machine
end

section
/-! SUPPORT. Proofs of the family spec/42_flow.md: JUMP (R131) and CALL (R132). -/

namespace Sys2Proof.Machine

/-! ### The words and the target of JUMP and CALL (R73, R74) -/

/-- R71: the first nibble of a word built from `op` and `nnn`. -/
theorem op_wordNNN (op : BitVec 4) (nnn : Addr) : (fieldsOf (wordNNN op nnn)).op = op := by
  apply BitVec.eq_of_toNat_eq
  rw [op_toNat, wordNNN_toNat]
  omega

/-- R71: the address field of a word built from `op` and `nnn`. -/
theorem nnn_wordNNN (op : BitVec 4) (nnn : Addr) : (fieldsOf (wordNNN op nnn)).nnn = nnn := by
  apply BitVec.eq_of_toNat_eq
  rw [fieldsOf, lowField_toNat, wordNNN_toNat]
  omega

/-- R74: a word built from a first nibble other than 0x0 and `nnn` is decoded by its family, from those two fields. -/
theorem decode_wordNNN {op : BitVec 4} (hop : op ≠ 0x0#4) (nnn : Addr) :
    decode (wordNNN op nnn) = decodeFamily { fieldsOf (wordNNN op nnn) with op := op, nnn := nnn } := by
  have hop' := op_wordNNN op nnn
  have hnnn := nnn_wordNNN op nnn
  rw [decode_of_op_ne_zero (by rwa [hop'])]
  generalize fieldsOf (wordNNN op nnn) = f at hop' hnnn ⊢
  rw [← hop', ← hnnn]

/-- R131: every word with the first nibble 0x1 is a JUMP. -/
theorem decode_jumpWord (nnn : Addr) : decode (0x1#4 ++ nnn) = .instr (.jump nnn) := decode_wordNNN (by decide) nnn

/-- R132: every word with the first nibble 0x2 is a CALL. -/
theorem decode_callWord (nnn : Addr) : decode (0x2#4 ++ nnn) = .instr (.call nnn) := decode_wordNNN (by decide) nnn

/-- R73: zero-extension keeps the number. -/
theorem zext16_toNat (nnn : Addr) : (zext16 nnn).toNat = nnn.toNat :=
  BitVec.toNat_setWidth_of_le (by omega)

/-! ### JUMP (R131) -/

/-- R131: JUMP writes `pc` alone. -/
theorem exec_jump (nnn : Addr) (s : State) : exec (.jump nnn) s = .next (s.setPc (zext16 nnn)) := rfl

/-- A write to `pc` leaves everything else as it was. -/
theorem setPc_onlyPcMayChange (s : State) (a : Word) : OnlyPcMayChange s (s.setPc a) :=
  ⟨fun r _ => setPc_readV s a r, ⟨setPc_sp .., setPc_slot s a⟩, setPc_status ..,
    ⟨setPc_cause .., setPc_faultPc .., setPc_faultOpcode ..⟩, setPc_memRead s a⟩

/-- Settles O19: the word from its fields, and the frame of a write to `pc`. -/
theorem jumpLoadsItsTarget : Obligations.JumpLoadsItsTarget := fun nnn s =>
  ⟨decode_jumpWord nnn, _, exec_jump nnn s, zext16_toNat nnn, setPc_onlyPcMayChange s _⟩

/-! ### CALL (R132) -/

/-- A push leaves memory as it was. -/
theorem push_memoryKept (s : State) (t : Word) : MemoryKept s (s.push t) := by
  obtain ⟨-, hmem, -⟩ := push_frame s t
  intro a
  rw [memRead, memRead, hmem]

/-- A push leaves the fault record as it was. -/
theorem push_recordKept (s : State) (t : Word) : RecordKept s (s.push t) := by
  obtain ⟨-, -, -, -, hrecord⟩ := push_frame s t
  exact hrecord

/-- A push leaves the run state as it was. -/
@[simp] theorem push_status (s : State) (t : Word) : (s.push t).status = s.status := by
  obtain ⟨-, -, -, hstatus, -⟩ := push_frame s t
  exact hstatus

/-- Settles O20: on a full stack the fault keeps everything the statement names; with a free slot the push is `push_spec`, and
the write to `pc` that follows keeps what the push left. -/
theorem callPushesThePcOrOverflows : Obligations.CallPushesThePcOrOverflows := by
  intro nnn s
  refine ⟨decode_callWord nnn, ?_⟩
  by_cases hfull : s.sp.val = 16
  · refine ⟨_, exec_call_of_full nnn hfull, fun hfree => by omega, fun _ => ?_, ?_, ?_⟩
    · exact ⟨raiseFatalIn_status .., raiseFatalIn_cause .., raiseFatalIn_pc .., raiseFatalIn_sp .., raiseFatalIn_slot _ _ s⟩
    · exact fun r _ => raiseFatalIn_readV _ _ s r
    · exact raiseFatalIn_memRead _ _ s
  · refine ⟨_, exec_call_of_not_full nnn hfull, fun hfree => ?_, fun h => absurd h hfull, ?_, ?_⟩
    · obtain ⟨hsp, hslot⟩ := push_spec s s.pc hfree
      exact ⟨hsp, zext16_toNat nnn, hslot, push_status .., push_recordKept ..⟩
    · exact fun r _ => push_readV s s.pc r
    · exact push_memoryKept s s.pc

end Sys2Proof.Machine
end

section
/-! SUPPORT. Proofs of the family spec/43_skip.md: SKIP-IF-EQUAL-IMM (R150) and SKIP-IF-EQUAL-REG (R152). -/

namespace Sys2Proof.Machine

/-! ### The words with the fields `x`, `kk` and `x`, `y`, `n` (R71, R74) -/

/-- R71: the fields of a word built from `op`, `x` and `kk`. -/
theorem fieldsOf_wordXKK (op : BitVec 4) (x : Reg) (kk : Byte) :
    fieldsOf (wordXKK op x kk) = ⟨op, x, kk.extractLsb' 4 4, kk, kk.extractLsb' 0 4, x ++ kk⟩ := by
  rw [fieldsOf, Fields.mk.injEq]
  refine ⟨?_, ?_, ?_, ?_, ?_, ?_⟩ <;> apply BitVec.eq_of_toNat_eq <;>
    simp only [field_toNat, wordXKK_toNat, append_toNat, BitVec.extractLsb'_toNat, Nat.shiftRight_eq_div_pow] <;> omega

/-- R71: the fields of a word built from its four nibbles. -/
theorem fieldsOf_wordXYN (op : BitVec 4) (x y : Reg) (n : BitVec 4) :
    fieldsOf (wordXYN op x y n) = ⟨op, x, y, y ++ n, n, x ++ (y ++ n)⟩ := by
  rw [fieldsOf, Fields.mk.injEq]
  refine ⟨?_, ?_, ?_, ?_, ?_, ?_⟩ <;> apply BitVec.eq_of_toNat_eq <;>
    simp only [field_toNat, wordXYN_toNat, append_toNat] <;> omega

/-- R74: a word built from a first nibble other than 0x0, `x` and `kk` is decoded by its family, from those fields. -/
theorem decode_wordXKK {op : BitVec 4} (hop : op ≠ 0x0#4) (x : Reg) (kk : Byte) :
    decode (wordXKK op x kk) = decodeFamily ⟨op, x, kk.extractLsb' 4 4, kk, kk.extractLsb' 0 4, x ++ kk⟩ := by
  rw [decode_of_op_ne_zero (by rwa [fieldsOf_wordXKK]), fieldsOf_wordXKK]

/-- R74: a word built from a first nibble other than 0x0 and three more nibbles is decoded by its family, from those. -/
theorem decode_wordXYN {op : BitVec 4} (hop : op ≠ 0x0#4) (x y : Reg) (n : BitVec 4) :
    decode (wordXYN op x y n) = decodeFamily ⟨op, x, y, y ++ n, n, x ++ (y ++ n)⟩ := by
  rw [decode_of_op_ne_zero (by rwa [fieldsOf_wordXYN]), fieldsOf_wordXYN]

/-- R150: every word with the first nibble 0x3 is a SKIP-IF-EQUAL-IMM. -/
theorem decode_skipEqImmWord (x : Reg) (kk : Byte) : decode (0x3#4 ++ x ++ kk) = .instr (.skipEqImm x kk) :=
  decode_wordXKK (by decide) x kk

/-- R152: with the first nibble 0x5, a word is a SKIP-IF-EQUAL-REG when its last nibble is 0x0. -/
theorem decode_skipEqRegWord (x y : Reg) : decode (0x5#4 ++ x ++ y ++ 0x0#4) = .instr (.skipEqReg x y) :=
  decode_wordXYN (by decide) x y 0x0#4

/-- R79, R152: with the first nibble 0x5, a word with any other last nibble is UNSUPPORTED. -/
theorem decode_skipEqRegWord_of_ne (x y : Reg) {n : BitVec 4} (hn : n ≠ 0x0#4) :
    decode (0x5#4 ++ x ++ y ++ n) = .rejected .unsupported :=
  (decode_wordXYN (by decide) x y n).trans (if_neg hn)

/-! ### The skip on equal values (R150, R152) -/

/-- R115, R150: a skip on the comparison of two values writes `pc` alone, and adds 2 to it exactly when they are equal. -/
theorem skipIf_aluEq (s : State) (a b : Byte) :
    s.skipIf (aluEq a b) = s.setPc (if a = b then s.pc + 2#16 else s.pc) := by
  simp only [skipIf_eq, aluEq, beq_iff_eq]

/-- R150: SKIP-IF-EQUAL-IMM compares `V[x]` with the byte `kk`. -/
theorem exec_skipEqImm (x : Reg) (kk : Byte) (s : State) :
    exec (.skipEqImm x kk) s = .next (s.setPc (if s.readV x = kk then s.pc + 2#16 else s.pc)) :=
  congrArg Host.Outcome.next (skipIf_aluEq s (s.readV x) kk)

/-- R152: SKIP-IF-EQUAL-REG compares the values of `V[x]` and `V[y]`. -/
theorem exec_skipEqReg (x y : Reg) (s : State) :
    exec (.skipEqReg x y) s = .next (s.setPc (if s.readV x = s.readV y then s.pc + 2#16 else s.pc)) :=
  congrArg Host.Outcome.next (skipIf_aluEq s (s.readV x) (s.readV y))

/-- Settles O23: the word from its fields, and the frame of a write to `pc`. -/
theorem skipIfEqualImm : Obligations.SkipIfEqualImm := fun x kk s =>
  ⟨decode_skipEqImmWord x kk, _, exec_skipEqImm x kk s, setPc_pc .., setPc_onlyPcMayChange s _⟩

/-- Settles O25: the word by its last nibble, and the frame of a write to `pc`. -/
theorem skipIfEqualReg : Obligations.SkipIfEqualReg := fun x y s =>
  ⟨decode_skipEqRegWord x y, fun _ => decode_skipEqRegWord_of_ne x y, _, exec_skipEqReg x y s, setPc_pc ..,
    setPc_onlyPcMayChange s _⟩

end Sys2Proof.Machine
end

section
/-! SUPPORT. Proofs of the family spec/44_immediate.md: LOAD-IMM (R160) and ADD-IMM (R161). -/

namespace Sys2Proof.Machine

/-! ### The frame of a register write -/

/-- A write to `V[x]` keeps every other register. -/
theorem writeV_regsKeptBut (s : State) (x : Reg) (b : Byte) : RegsKeptBut [x] s (s.writeV x b) := by
  intro r hr
  rw [readV_writeV, if_neg (List.ne_of_not_mem_cons hr)]

/-- A register write leaves everything but the registers as it was. -/
theorem writeV_onlyRegsMayChange (s : State) (x : Reg) (b : Byte) : OnlyRegsMayChange s (s.writeV x b) :=
  ⟨writeV_pc .., ⟨writeV_sp .., writeV_slot s x b⟩, writeV_status ..,
    ⟨writeV_cause .., writeV_faultPc .., writeV_faultOpcode ..⟩, writeV_memRead s x b⟩

/-! ### LOAD-IMM (R160) -/

/-- R160: every word with the first nibble 0x6 is a LOAD-IMM. -/
theorem decode_loadImmWord (x : Reg) (kk : Byte) : decode (0x6#4 ++ x ++ kk) = .instr (.loadImm x kk) :=
  decode_wordXKK (by decide) x kk

/-- R160: LOAD-IMM makes one register write, of `kk`. -/
theorem exec_loadImm (x : Reg) (kk : Byte) (s : State) : exec (.loadImm x kk) s = .next (s.writeV x kk) := rfl

/-- Settles O26: the word from its fields, the byte read back, and the frame of a register write. -/
theorem loadImmWritesItsByte : Obligations.LoadImmWritesItsByte := fun x kk s =>
  ⟨decode_loadImmWord x kk, _, exec_loadImm x kk s, readV_writeV_self ..,
    writeV_regsKeptBut s x _, writeV_onlyRegsMayChange ..⟩

/-! ### ADD-IMM (R161) -/

/-- R161: every word with the first nibble 0x7 is an ADD-IMM. -/
theorem decode_addImmWord (x : Reg) (kk : Byte) : decode (0x7#4 ++ x ++ kk) = .instr (.addImm x kk) :=
  decode_wordXKK (by decide) x kk

/-- R161: ADD-IMM makes one register write, of the sum: the carry goes nowhere. -/
theorem exec_addImm (x : Reg) (kk : Byte) (s : State) :
    exec (.addImm x kk) s = .next (s.writeV x (aluAdd (s.readV x) kk)) := rfl

/-- R178: the ALU's sum as a number. -/
theorem aluAdd_toNat (a b : Byte) : (aluAdd a b).toNat = (a.toNat + b.toNat) % 256 := BitVec.toNat_add a b

/-- Settles O27: the word from its fields, the sum read back as a number, and the frame of a register write. -/
theorem addImmWrapsWithoutFlag : Obligations.AddImmWrapsWithoutFlag := by
  intro x kk s
  refine ⟨decode_addImmWord x kk, _, exec_addImm x kk s, ?_, writeV_regsKeptBut s x _, writeV_onlyRegsMayChange ..⟩
  rw [readV_writeV_self, aluAdd_toNat]

end Sys2Proof.Machine
end

section
/-! SUPPORT. Proofs of the family spec/45_alu.md: LOAD-REG (R171), OR (R172), AND (R173), XOR (R174) and ADD-REG (R175). -/

namespace Sys2Proof.Machine

/-! ### The words of the family (R170) -/

/-- R170: a word with the first nibble 0x8 is decoded by its low nibble. -/
theorem decode_aluWord (x y : Reg) (n : BitVec 4) :
    decode (0x8#4 ++ x ++ y ++ n) = decodeAlu ⟨0x8#4, x, y, y ++ n, n, x ++ (y ++ n)⟩ :=
  decode_wordXYN (by decide) x y n

/-! ### LOAD-REG (R171) -/

/-- R171: LOAD-REG makes one register write, of `V[y]`. -/
theorem exec_loadReg (x y : Reg) (s : State) : exec (.loadReg x y) s = .next (s.writeV x (s.readV y)) := rfl

/-- Settles O28: the word by its low nibble, the copy read back, and the frame of a register write. -/
theorem loadRegCopies : Obligations.LoadRegCopies := fun x y s =>
  ⟨decode_aluWord x y 0x0#4, _, exec_loadReg x y s, readV_writeV_self ..,
    writeV_regsKeptBut s x _, writeV_onlyRegsMayChange ..⟩

/-! ### The bitwise instructions (R172 to R174) -/

/-- R172: OR makes one register write, of the two operands' bitwise OR. -/
theorem exec_orReg (x y : Reg) (s : State) :
    exec (.orReg x y) s = .next (s.writeV x (aluOr (s.readV x) (s.readV y))) := rfl

/-- R173: AND makes one register write, of the two operands' bitwise AND. -/
theorem exec_andReg (x y : Reg) (s : State) :
    exec (.andReg x y) s = .next (s.writeV x (aluAnd (s.readV x) (s.readV y))) := rfl

/-- R174: XOR makes one register write, of the two operands' bitwise XOR. -/
theorem exec_xorReg (x y : Reg) (s : State) :
    exec (.xorReg x y) s = .next (s.writeV x (aluXor (s.readV x) (s.readV y))) := rfl

/-- A bit of a register after a write to it is that bit of the byte written. -/
theorem getLsbD_readV_writeV_self (s : State) (x : Reg) (b : Byte) (k : Nat) :
    ((s.writeV x b).readV x).getLsbD k = b.getLsbD k := by
  rw [readV_writeV_self]

/-- Settles O29: the word by its low nibble, each bit read back, and the frame of a register write. -/
theorem orWritesBitwiseOr : Obligations.OrWritesBitwiseOr := fun x y s =>
  ⟨decode_aluWord x y 0x1#4, _, exec_orReg x y s,
    fun k _ => (getLsbD_readV_writeV_self s x _ k).trans BitVec.getLsbD_or,
    writeV_regsKeptBut s x _, writeV_onlyRegsMayChange ..⟩

/-- Settles O30: the word by its low nibble, each bit read back, and the frame of a register write. -/
theorem andWritesBitwiseAnd : Obligations.AndWritesBitwiseAnd := fun x y s =>
  ⟨decode_aluWord x y 0x2#4, _, exec_andReg x y s,
    fun k _ => (getLsbD_readV_writeV_self s x _ k).trans BitVec.getLsbD_and,
    writeV_regsKeptBut s x _, writeV_onlyRegsMayChange ..⟩

/-- Settles O31: the word by its low nibble, each bit read back, and the frame of a register write. -/
theorem xorWritesBitwiseXor : Obligations.XorWritesBitwiseXor := fun x y s =>
  ⟨decode_aluWord x y 0x3#4, _, exec_xorReg x y s,
    fun k _ => (getLsbD_readV_writeV_self s x _ k).trans BitVec.getLsbD_xor,
    writeV_regsKeptBut s x _, writeV_onlyRegsMayChange ..⟩

/-! ### The frame of two writes -/

/-- Two transitions in a row keep every register that neither may change. -/
theorem RegsKeptBut.trans {xs ys : List Reg} {s t u : State} (hst : RegsKeptBut xs s t) (htu : RegsKeptBut ys t u) :
    RegsKeptBut (xs ++ ys) s u := by
  intro r hr
  rw [List.mem_append, not_or] at hr
  obtain ⟨hxs, hys⟩ := hr
  exact (htu r hys).trans (hst r hxs)

/-- Two transitions in a row that may change only registers may change only registers. -/
theorem OnlyRegsMayChange.trans {s t u : State} (hst : OnlyRegsMayChange s t) (htu : OnlyRegsMayChange t u) :
    OnlyRegsMayChange s u := by
  obtain ⟨hpc, ⟨hsp, hslot⟩, hstatus, ⟨hcause, hfaultPc, hfaultOpcode⟩, hmem⟩ := hst
  obtain ⟨hpc', ⟨hsp', hslot'⟩, hstatus', ⟨hcause', hfaultPc', hfaultOpcode'⟩, hmem'⟩ := htu
  exact ⟨hpc'.trans hpc, ⟨hsp'.trans hsp, fun k => (hslot' k).trans (hslot k)⟩, hstatus'.trans hstatus,
    ⟨hcause'.trans hcause, hfaultPc'.trans hfaultPc, hfaultOpcode'.trans hfaultOpcode⟩,
    fun a => (hmem' a).trans (hmem a)⟩

/-! ### ADD-REG (R175) -/

/-- R175, R170: ADD-REG writes the sum and then the carry, both of the operands as they were before either write. -/
theorem exec_addReg (x y : Reg) (s : State) :
    exec (.addReg x y) s =
      .next ((s.writeV x (aluAdd (s.readV x) (s.readV y))).writeV VF (carryFlag (s.readV x) (s.readV y))) := rfl

/-- Settles O32: the second write leaves the sum where x is not 0xF, and the carry is what `VF` holds after it. -/
theorem addRegWritesSumThenCarry : Obligations.AddRegWritesSumThenCarry := by
  intro x y s
  refine ⟨decode_aluWord x y 0x4#4, _, exec_addReg x y s, fun hx => ?_, ?_, ?_, ?_⟩
  · have hVF : x ≠ VF := hx
    rw [readV_writeV, if_neg hVF, readV_writeV_self, aluAdd_toNat]
  · exact (congrArg BitVec.toNat (readV_writeV_self _ VF _)).trans (carryFlag_toNat ..)
  · exact (writeV_regsKeptBut s x _).trans (writeV_regsKeptBut _ VF _)
  · exact (writeV_onlyRegsMayChange s x _).trans (writeV_onlyRegsMayChange ..)

end Sys2Proof.Machine
end

section
/-! SUPPORT. Proofs of the family spec/60_exceptions.md: the records of STACK_UNDERFLOW (R201) and STACK_OVERFLOW (R204). -/

namespace Sys2Proof.Machine

/-! ### The record a fault of an executing instruction leaves (R205) -/

/-- R205, R28: on the outputs, a fatal condition of an instruction shows its cause, the address its step began at and its
word. -/
theorem observe_raiseFatalIn_advance (c : Cause) (i : Instr) (s : State) :
    observeCause (raiseFatalIn c i s.advance) = c.code ∧ observeFaultPc (raiseFatalIn c i s.advance) = s.pc ∧
      observeFaultOpcode (raiseFatalIn c i s.advance) = encode i :=
  ⟨congrArg Cause.code (raiseFatalIn_cause ..), (raiseFatalIn_faultPc ..).trans (advance_instrAddr s),
    raiseFatalIn_faultOpcode ..⟩

/-! ### STACK_UNDERFLOW (R201) -/

/-- R130: the exact word of RETURN. -/
theorem decode_ret : decode 0x00EE#16 = .instr .ret := rfl

/-- R201: a step that fetches RETURN on an empty stack ends the run, in the state after the fetch. -/
theorem step_of_fetch_ret_of_empty {s : State} (hrun : s.status = .running) (hf : fetchWord s = some 0x00EE#16)
    (hempty : s.sp.val = 0) : step s = .next (raiseFatalIn .stackUnderflow .ret s.advance) := by
  rw [step_of_decode_instr hrun hf decode_ret, exec_ret_of_empty (s := s.advance) hempty]

/-- Settles O42: the step of RETURN on an empty stack, and the record its fault leaves. -/
theorem stackUnderflowIsRecorded : Obligations.StackUnderflowIsRecorded := fun s hrun hf hempty =>
  ⟨_, step_of_fetch_ret_of_empty hrun hf hempty, raiseFatalIn_status .., observe_raiseFatalIn_advance .stackUnderflow .ret s⟩

/-! ### STACK_OVERFLOW (R204) -/

/-- R204: a step that fetches CALL on a full stack ends the run, in the state after the fetch. -/
theorem step_of_fetch_call_of_full {s : State} {nnn : Addr} (hrun : s.status = .running)
    (hf : fetchWord s = some (0x2#4 ++ nnn)) (hfull : s.sp.val = 16) :
    step s = .next (raiseFatalIn .stackOverflow (.call nnn) s.advance) := by
  rw [step_of_decode_instr hrun hf (decode_callWord nnn), exec_call_of_full (s := s.advance) nnn hfull]

/-- Settles O44: the step of CALL on a full stack, and the record its fault leaves. -/
theorem stackOverflowIsRecorded : Obligations.StackOverflowIsRecorded := fun s nnn hrun hf hfull =>
  ⟨_, step_of_fetch_call_of_full hrun hf hfull, raiseFatalIn_status ..,
    observe_raiseFatalIn_advance .stackOverflow (.call nnn) s⟩

end Sys2Proof.Machine
end

section
/-! SUPPORT. Proofs over all sixteen instructions: the word, its row and its written form (spec/30_encoding.md). -/

namespace Sys2Proof

/-! ### Every instruction is read back from its word and its bytes (R74, R77) -/

/-- R74: the decoder reads an instruction back from its word, whose fields are the operands. -/
theorem decode_encode (i : Instr) : decode (encode i) = .instr i := by
  cases i with
  | halt | clear | ret => rfl
  | jump nnn | call nnn => exact Machine.decode_wordNNN (by decide) nnn
  | skipEqImm x kk | skipNeImm x kk | loadImm x kk | addImm x kk => exact Machine.decode_wordXKK (by decide) x kk
  | skipEqReg x y | loadReg x y | orReg x y | andReg x y | xorReg x y | addReg x y | subReg x y =>
    exact Machine.decode_wordXYN (by decide) x y _

/-- R52, R70: the decoder takes the first two bytes, high byte first, and leaves the rest. -/
theorem decodeBytes_encodeBytes_append (i : Instr) (rest : List Byte) :
    decodeBytes (encodeBytes i ++ rest) = (decode (encode i), rest) := by
  simp only [encodeBytes, List.cons_append, List.nil_append, decodeBytes, wordOfBytes_high_low]

/-- Settles O3: the word by `decode_encode`, and the bytes by joining them into the word again. -/
theorem decodeOfEncodeIsTheInstruction : Obligations.DecodeOfEncodeIsTheInstruction := fun i =>
  ⟨decode_encode i, fun rest => by rw [decodeBytes_encodeBytes_append, decode_encode]⟩

/-- Settles O4: by the decoder's branches, in `encode_of_decode`. -/
theorem encodeOfDecodeIsTheWord : Obligations.EncodeOfDecodeIsTheWord := fun _ _ => encode_of_decode

/-! ### The rows of the opcode map do not overlap (R75) -/

/-- R74: the rows stand for sixteen different instructions. -/
theorem rowInstrs_nodup (f : Fields) : (rowInstrs f).Nodup := by simp [rowInstrs]

/-- R75: two rows that claim one word stand for one instruction, what the word decodes to. -/
theorem RowDecodes.instr_eq {w : Word} {r q : OpcodeRow} {i j : Instr} (hr : RowDecodes w r i) (hq : RowDecodes w q j)
    (hrw : r.matchesWord w = true) (hqw : q.matchesWord w = true) : i = j :=
  Decoded.instr.inj <| (hr.mp (eq_of_beq hrw)).symm.trans (hq.mp (eq_of_beq hqw))

/-- Settles O6: two rows that match one word would have their instruction in common, and no two of the sixteen are equal. -/
theorem opcodeRowsDoNotOverlap : Obligations.OpcodeRowsDoNotOverlap := by
  intro w
  have hrows := opcodeTable_rowDecodes w
  have hlen := hrows.length_eq
  rw [List.pairwise_iff_get]
  rintro m n hlt ⟨hm, hn⟩
  have hne := List.pairwise_iff_get.mp (rowInstrs_nodup (fieldsOf w)) (m.cast hlen) (n.cast hlen) hlt
  exact hne ((hrows.get m.isLt _).instr_eq (hrows.get n.isLt _) hm hn)

/-! ### The unsupported words (R78) -/

/-- R177: in the family 0x8xyN the low nibbles from 6 on are no instruction. -/
theorem decodeAlu_rejected_iff (f : Fields) : decodeAlu f = .rejected .unsupported ↔ 6 ≤ f.n.toNat := by
  unfold decodeAlu
  split
  case h_7 h0 h1 h2 h3 h4 h5 =>
    simp only [imp_false, ← BitVec.toNat_inj, BitVec.toNat_ofNat] at h0 h1 h2 h3 h4 h5
    simp only [true_iff]
    omega
  all_goals next hn => simp [hn]

/-- R78: the families reject by the first nibble, and two of them by the low nibble too. -/
theorem decodeFamily_rejected_iff (f : Fields) : decodeFamily f = .rejected .unsupported ↔
    f.op.toNat = 0 ∨ (f.op.toNat = 5 ∧ f.n.toNat ≠ 0) ∨ (f.op.toNat = 8 ∧ 6 ≤ f.n.toNat) ∨ 9 ≤ f.op.toNat := by
  unfold decodeFamily
  split
  case h_5 hop => simp [hop, ← BitVec.toNat_inj]
  case h_8 hop => simp [hop, decodeAlu_rejected_iff]
  case h_9 h1 h2 h3 h4 h5 h6 h7 h8 =>
    simp only [imp_false, ← BitVec.toNat_inj, BitVec.toNat_ofNat] at h1 h2 h3 h4 h5 h6 h7 h8
    simp only [true_iff]
    omega
  all_goals next hop => simp [hop]

/-- R78: past the three exact words, the decoder rejects what the families reject. -/
theorem decode_rejected_iff (w : Word) : decode w = .rejected .unsupported ↔
    (w ≠ 0x0000#16 ∧ w ≠ 0x00E0#16 ∧ w ≠ 0x00EE#16) ∧ decodeFamily (fieldsOf w) = .rejected .unsupported := by
  unfold decode
  split_ifs with h0 hE0 hEE <;> simp [*]

/-- Settles O7: the first nibble and the low nibble as numbers, where the three exact words lie below 0x1000. -/
theorem unsupportedWordsAreTheListedRanges : Obligations.UnsupportedWordsAreTheListedRanges := by
  intro w
  have hn : (fieldsOf w).n.toNat = w.toNat % 2 ^ 4 := lowField_toNat w 4
  rw [decode_rejected_iff, decodeFamily_rejected_iff, op_toNat, hn]
  simp only [ne_eq, ← BitVec.toNat_inj, BitVec.toNat_ofNat]
  omega

/-! ### The written form (R82) -/

/-- R71: a register number fits its 4 bits. -/
theorem fits_reg (x : Reg) : (AsmOperand.reg x.toNat).fits .reg = true := decide_eq_true x.isLt

/-- R71: a byte fits its 8 bits. -/
theorem fits_imm (kk : Byte) : (AsmOperand.imm kk.toNat).fits .imm = true := decide_eq_true kk.isLt

/-- R71: an address fits its 12 bits. -/
theorem fits_addr (nnn : Addr) : (AsmOperand.addr nnn.toNat).fits .addr = true := decide_eq_true nnn.isLt

/-- R82: a line is well-formed when its operands fit the kinds its mnemonic takes. -/
theorem wellFormed_of_fit {a : AsmInstr} {ks : List OperandKind} (hkinds : operandKinds a.mnemonic = some ks)
    (hfit : operandsFit a.operands ks = true) : a.wellFormed = true := by
  rw [AsmInstr.wellFormed, hkinds]
  exact hfit

/-- R82: the written form has its row's kinds of operand, each within its field. -/
theorem toAsm_wellFormed (i : Instr) : i.toAsm.wellFormed = true := by
  cases i with
  | halt | clear | ret => exact wellFormed_of_fit rfl rfl
  | jump nnn | call nnn => exact wellFormed_of_fit (ks := [.addr]) rfl (by simp [Instr.toAsm, operandsFit, fits_addr])
  | skipEqImm x kk | skipNeImm x kk | loadImm x kk | addImm x kk =>
    exact wellFormed_of_fit (ks := [.reg, .imm]) rfl (by simp [Instr.toAsm, operandsFit, fits_reg, fits_imm])
  | skipEqReg x y | loadReg x y | orReg x y | andReg x y | xorReg x y | addReg x y | subReg x y =>
    exact wellFormed_of_fit (ks := [.reg, .reg]) rfl (by simp [Instr.toAsm, operandsFit, fits_reg])

/-- R82: the operands' numbers give the operands back. -/
theorem assembleFields_toAsm (i : Instr) : assembleFields i.toAsm = some i := by
  cases i <;> simp [assembleFields, Instr.toAsm, Instr.mnemonic]

/-- Settles O8: the check and the reading of the written form. -/
theorem writtenFormNamesTheInstruction : Obligations.WrittenFormNamesTheInstruction := fun i =>
  ⟨toAsm_wellFormed i, by rw [assemble, if_pos (toAsm_wellFormed i), assembleFields_toAsm]⟩

/-- Settles O1: the decoder evaluated on each word of the table. -/
theorem specWordsDecode : Obligations.SpecWordsDecode := by
  unfold Obligations.SpecWordsDecode
  decide

end Sys2Proof
end

section
/-! SUPPORT. Proofs over every step: how a step can end (spec/40_engine.md sections 1 to 3), what fault entry writes
(spec/60_exceptions.md section 2), and runs of any number of steps. -/

namespace Sys2Proof.Machine

/-! ### How a meaning can end (R104, R210) -/

/-- R210: the instruction, after its fetch, goes on: it is no HALT, no RETURN of an empty stack, no CALL on a full one. -/
def GoesOn (i : Instr) (s : State) : Prop :=
  i ≠ .halt ∧ (i = .ret → s.sp.val ≠ 0) ∧ ∀ nnn, i = .call nnn → s.sp.val ≠ 16

/-- R104: a meaning halts, faults on the stack's bounds, or goes on in the same run state; only a fault writes the record. -/
theorem exec_end {i : Instr} {s t : State} (h : exec i s = .next t) :
    (i = .halt ∧ t = s.setStatus .halted) ∨
    (i = .ret ∧ s.sp.val = 0 ∧ t = raiseFatalIn .stackUnderflow i s) ∨
    (∃ nnn, i = .call nnn ∧ s.sp.val = 16 ∧ t = raiseFatalIn .stackOverflow i s) ∨
    (GoesOn i s ∧ t.status = s.status ∧ RecordKept s t) := by
  obtain ⟨u, hu, hcases⟩ := exec_cases i s
  obtain rfl : u = t := by simpa [h] using hu.symm
  obtain ⟨v', rfl, x, hx⟩ | ⟨p, rfl, -, hret, hhalt, hcall⟩ | hhalt | ⟨rfl, hsp, rfl⟩ | ⟨nnn, rfl, hsp, rfl⟩ |
    ⟨rfl, hsp, rfl⟩ | ⟨nnn, rfl, hsp, rfl⟩ := hcases
  · have hgo : GoesOn i s := by
      refine ⟨?_, ?_, ?_⟩
      · rintro rfl; cases hx
      · rintro rfl; cases hx
      · rintro nnn rfl; cases hx
    exact .inr (.inr (.inr ⟨hgo, rfl, rfl, rfl, rfl⟩))
  · exact .inr (.inr (.inr ⟨⟨hhalt, fun e => absurd e hret, fun nnn e => absurd e (hcall nnn)⟩, rfl, rfl, rfl, rfl⟩))
  · exact .inl hhalt
  · exact .inr (.inr (.inr ⟨⟨by simp, fun _ => by omega, by simp⟩, rfl, rfl, rfl, rfl⟩))
  · exact .inr (.inr (.inr ⟨⟨by simp, by simp, fun _ _ => by omega⟩, push_status .., push_recordKept ..⟩))
  · exact .inr (.inl ⟨rfl, hsp, rfl⟩)
  · exact .inr (.inr (.inl ⟨nnn, rfl, hsp, rfl⟩))

/-! ### How a step can end (R104, R205, R210) -/

/-- R102, R103: what a step in RUNNING has decoded, none where the fetch was out of range. -/
def fetched (s : State) : Option Decoded := (fetchWord s).map decode

theorem fetched_eq_none_iff (s : State) : fetched s = none ↔ 0xFFE < s.pc.toNat := by
  rw [fetched, Option.map_eq_none_iff, fetchWord_none_iff]

theorem fetched_eq_some_iff (s : State) (d : Decoded) : fetched s = some d ↔ ∃ w, fetchWord s = some w ∧ decode w = d :=
  Option.map_eq_some_iff

/-- R77: an instruction is fetched exactly where its one word is. -/
theorem fetched_eq_instr_iff (s : State) (i : Instr) : fetched s = some (.instr i) ↔ fetchWord s = some (encode i) := by
  rw [fetched_eq_some_iff]
  constructor
  · rintro ⟨w, hw, hd⟩
    rw [hw, encode_of_decode hd]
  · exact fun h => ⟨encode i, h, decode_encode i⟩

/-- R104: a step in RUNNING faults on one of the four conditions, halts, or goes on in RUNNING; only a fault writes the
record. -/
theorem step_end {s t : State} (hrun : s.status = .running) (h : step s = .next t) :
    (fetched s = none ∧ t = raiseFatal .fetchOutOfRange s.pc 0x0000#16 s) ∨
    (∃ w, fetched s = some (.rejected .unsupported) ∧ fetchWord s = some w ∧
      t = raiseFatal .unsupportedOpcode s.pc w s.advance) ∨
    (fetched s = some (.instr .halt) ∧ t = s.advance.setStatus .halted) ∨
    (fetched s = some (.instr .ret) ∧ s.sp.val = 0 ∧ t = raiseFatal .stackUnderflow s.pc (encode .ret) s.advance) ∨
    (∃ nnn, fetched s = some (.instr (.call nnn)) ∧ s.sp.val = 16 ∧
      t = raiseFatal .stackOverflow s.pc (encode (.call nnn)) s.advance) ∨
    (∃ i, fetched s = some (.instr i) ∧ exec i s.advance = .next t ∧ GoesOn i s ∧ t.status = .running ∧
      RecordKept s t) := by
  have hraise (c : Cause) (i : Instr) : raiseFatalIn c i s.advance = raiseFatal c s.pc (encode i) s.advance := by
    rw [raiseFatalIn, advance_instrAddr]
  obtain ⟨hstopped, -⟩ | ⟨-, hf, hstep⟩ | ⟨w, -, hf, hd, hstep⟩ | ⟨w, i, -, hf, hd, hstep⟩ := step_cases s
  · exact absurd hrun hstopped
  · obtain rfl := Host.Outcome.next.inj (hstep.symm.trans h)
    exact .inl ⟨by rw [fetched, hf]; rfl, rfl⟩
  · obtain rfl := Host.Outcome.next.inj (hstep.symm.trans h)
    exact .inr (.inl ⟨w, (fetched_eq_some_iff s _).mpr ⟨w, hf, hd⟩, hf, rfl⟩)
  · have hi : fetched s = some (.instr i) := (fetched_eq_some_iff s _).mpr ⟨w, hf, hd⟩
    have hexec : exec i s.advance = .next t := hstep.symm.trans h
    obtain ⟨rfl, rfl⟩ | ⟨rfl, hsp, rfl⟩ | ⟨nnn, rfl, hsp, rfl⟩ | ⟨hgo, hstatus, hrec⟩ := exec_end hexec
    · exact .inr (.inr (.inl ⟨hi, rfl⟩))
    · exact .inr (.inr (.inr (.inl ⟨hi, hsp, hraise ..⟩)))
    · exact .inr (.inr (.inr (.inr (.inl ⟨nnn, hi, hsp, hraise ..⟩))))
    · exact .inr (.inr (.inr (.inr (.inr ⟨i, hi, hexec, hgo, hstatus.trans hrun, hrec⟩))))

/-- Settles O15: each clause said of what was fetched, and read off in each of the six ends of a step. -/
theorem runEndsExactlyOnHaltOrAFatalCondition : Obligations.RunEndsExactlyOnHaltOrAFatalCondition := by
  intro s t hrun h
  have hhalt : fetchWord s = some 0x0000#16 ↔ fetched s = some (.instr .halt) := (fetched_eq_instr_iff s .halt).symm
  have hret : fetchWord s = some 0x00EE#16 ↔ fetched s = some (.instr .ret) := (fetched_eq_instr_iff s .ret).symm
  have hcall (nnn : Addr) : fetchWord s = some (0x2#4 ++ nnn) ↔ fetched s = some (.instr (.call nnn)) :=
    (fetched_eq_instr_iff s (.call nnn)).symm
  have hgo : (∃ w i, fetchWord s = some w ∧ decode w = .instr i ∧ i ≠ .halt ∧ (i = .ret → s.sp.val ≠ 0) ∧
      ∀ nnn, i = .call nnn → s.sp.val ≠ 16) ↔ ∃ i, fetched s = some (.instr i) ∧ GoesOn i s := by
    constructor
    · exact fun ⟨w, i, hw, hd, hon⟩ => ⟨i, (fetched_eq_some_iff s _).mpr ⟨w, hw, hd⟩, hon⟩
    · intro ⟨i, hf, hon⟩
      obtain ⟨w, hw, hd⟩ := (fetched_eq_some_iff s _).mp hf
      exact ⟨w, i, hw, hd, hon⟩
  rw [hhalt, hret, ← fetched_eq_none_iff, ← fetched_eq_some_iff, hgo]
  simp only [hcall]
  obtain ⟨hf, rfl⟩ | ⟨w, hf, -, rfl⟩ | ⟨hf, rfl⟩ | ⟨hf, hsp, rfl⟩ | ⟨nnn, hf, hsp, rfl⟩ | ⟨i, hf, -, hon, hstatus, -⟩ :=
    step_end hrun h
  · simp [hf]
  · simp [hf]
  · simp [hf, GoesOn]
  · simp [hf, hsp, GoesOn]
  · simp [hf, hsp, GoesOn]
  · obtain ⟨hnohalt, hret, hcall⟩ := id hon
    simpa [hf, hstatus, hon, hnohalt] using And.intro hret hcall

/-- Every step answers a next state, with the memory it started from. -/
theorem step_next (s : State) : ∃ t, step s = .next t ∧ t.mem = s.mem := by
  obtain ⟨t, ht, hmem, -⟩ := step_ignoresMemory (s := s) (m := s.mem) rfl
  exact ⟨t, ht, hmem⟩

/-- R104: from RUNNING a step goes to RUNNING, to HALTED or to FAULT with a cause. -/
theorem step_status {s t : State} (hrun : s.status = .running) (h : step s = .next t) :
    t.status = .running ∨ t.status = .halted ∨ (t.status = .fault ∧ t.cause ≠ .none) := by
  obtain ⟨-, rfl⟩ | ⟨w, -, -, rfl⟩ | ⟨-, rfl⟩ | ⟨-, -, rfl⟩ | ⟨nnn, -, -, rfl⟩ | ⟨i, -, -, -, hstatus, -⟩ := step_end hrun h
  · exact .inr (.inr ⟨rfl, by simp⟩)
  · exact .inr (.inr ⟨rfl, by simp⟩)
  · exact .inr (.inl rfl)
  · exact .inr (.inr ⟨rfl, by simp⟩)
  · exact .inr (.inr ⟨rfl, by simp⟩)
  · exact .inl hstatus

/-- Settles O13: by the ends of a step in RUNNING, and by the same state elsewhere. -/
theorem stepAlwaysAnswersANextState : Obligations.StepAlwaysAnswersANextState := by
  intro s
  by_cases hrun : s.status = .running
  · obtain ⟨t, ht, -⟩ := step_next s
    have hstatus := step_status hrun ht
    refine ⟨t, ht, fun _ => hstatus, fun hne => absurd hrun hne, fun _ hidle => ?_⟩
    simp [hidle] at hstatus
  · exact ⟨s, step_of_not_running hrun, fun h => absurd h hrun, fun _ => rfl, id⟩

/-! ### Fault entry (R205) -/

/-- R205: a step that enters FAULT writes a record, of a fetch out of range or of the word it fetched, and nothing else after
the fetch. -/
theorem step_fault {s t : State} (hrun : s.status = .running) (h : step s = .next t) (hfault : t.status = .fault) :
    (fetchWord s = none ∧ t = raiseFatal .fetchOutOfRange s.pc 0x0000#16 s) ∨
    (∃ w c, fetchWord s = some w ∧ c ≠ .none ∧ c ≠ .fetchOutOfRange ∧ t = raiseFatal c s.pc w s.advance) := by
  obtain ⟨hf, rfl⟩ | ⟨w, -, hw, rfl⟩ | ⟨-, rfl⟩ | ⟨hf, -, rfl⟩ | ⟨nnn, hf, -, rfl⟩ | ⟨i, -, -, -, hstatus, -⟩ :=
    step_end hrun h
  · exact .inl ⟨Option.map_eq_none_iff.mp hf, rfl⟩
  · exact .inr ⟨w, _, hw, by simp, by simp, rfl⟩
  · rw [setStatus_status] at hfault
    cases hfault
  · exact .inr ⟨_, _, (fetched_eq_instr_iff s _).mp hf, by simp, by simp, rfl⟩
  · exact .inr ⟨_, _, (fetched_eq_instr_iff s _).mp hf, by simp, by simp, rfl⟩
  · rw [hstatus] at hfault
    cases hfault

/-- R205: fault entry writes no register, no slot, not `sp` and no byte of memory. -/
theorem raiseFatal_frame (c : Cause) (a w : Word) (s : State) :
    RegsKeptBut [] s (raiseFatal c a w s) ∧ StackKept s (raiseFatal c a w s) ∧ MemoryKept s (raiseFatal c a w s) :=
  ⟨fun r _ => raiseFatal_readV c a w s r, ⟨raiseFatal_sp .., raiseFatal_slot c a w s⟩, raiseFatal_memRead c a w s⟩

/-- R205: fault entry after the fetch writes nothing of these either. -/
theorem raiseFatal_advance_frame (c : Cause) (a w : Word) (s : State) :
    RegsKeptBut [] s (raiseFatal c a w s.advance) ∧ StackKept s (raiseFatal c a w s.advance) ∧
      MemoryKept s (raiseFatal c a w s.advance) :=
  raiseFatal_frame c a w s.advance

/-- Settles O45: by `step_fault`, with the record and the frame of fault entry. -/
theorem faultEntryWritesNothingElse : Obligations.FaultEntryWritesNothingElse := by
  intro s t hrun h hfault
  obtain ⟨hf, rfl⟩ | ⟨w, c, hf, -, -, rfl⟩ := step_fault hrun h hfault
  · exact ⟨rfl, fun _ => ⟨rfl, rfl⟩, fun w hw => by simp [hf] at hw, raiseFatal_frame ..⟩
  · refine ⟨rfl, fun hnone => by simp [hf] at hnone, fun w' hw => ?_, raiseFatal_advance_frame ..⟩
    obtain rfl : w = w' := by simpa [hf] using hw
    exact ⟨rfl, rfl⟩

/-- A step in RUNNING that does not enter FAULT leaves the record alone. -/
theorem step_recordKept_of_not_fault {s t : State} (hrun : s.status = .running) (h : step s = .next t)
    (hno : t.status ≠ .fault) : RecordKept s t := by
  obtain ⟨-, rfl⟩ | ⟨w, -, -, rfl⟩ | ⟨-, rfl⟩ | ⟨-, -, rfl⟩ | ⟨nnn, -, -, rfl⟩ | ⟨i, -, -, -, -, hrec⟩ := step_end hrun h
  · exact absurd rfl hno
  · exact absurd rfl hno
  · exact ⟨rfl, rfl, rfl⟩
  · exact absurd rfl hno
  · exact absurd rfl hno
  · exact hrec

/-- Settles O41: outside RUNNING the state is the same, and in it only a step into FAULT writes the record. -/
theorem faultRecordIsWrittenOnFaultEntryAlone : Obligations.FaultRecordIsWrittenOnFaultEntryAlone := by
  intro s t h hrec
  by_cases hrun : s.status = .running
  · exact ⟨hrun, by_contra fun hno => hrec (step_recordKept_of_not_fault hrun h hno)⟩
  · obtain rfl := Host.Outcome.next.inj ((step_of_not_running hrun).symm.trans h)
    exact absurd ⟨rfl, rfl, rfl⟩ hrec

/-- Settles O10: the fetch is none, and the fault's record and frame are those of `raiseFatal`. -/
theorem fetchOutOfRangeFaults : Obligations.FetchOutOfRangeFaults := fun s hrun hpc =>
  ⟨_, step_of_fetch_none hrun ((fetchWord_none_iff s).mpr hpc), raiseFatal_status .., rfl, raiseFatal_faultPc ..,
    raiseFatal_faultOpcode .., raiseFatal_pc .., raiseFatal_frame ..⟩

/-- Settles O43: a word no row matches is rejected, and the fault's record and frame are those of `raiseFatal`. -/
theorem unsupportedOpcodeIsRecorded : Obligations.UnsupportedOpcodeIsRecorded := fun _ w hrun hf hrows =>
  ⟨_, step_of_decode_rejected hrun hf ((no_row_matches_iff w).mp hrows), raiseFatal_status .., rfl, raiseFatal_faultPc ..,
    raiseFatal_faultOpcode .., raiseFatal_advance_frame ..⟩

/-! ### Runs of any number of steps (R107) -/

/-- A run whose first step answers a next state goes on from there, in any machine. -/
theorem core_run_succ (M : Host.Core) {s t : M.State} (h : M.step s = .next t) (k : Nat) : M.run (k + 1) s = M.run k t := by
  rw [Host.Core.run, h]

/-- A run is its first step, then the rest of it. -/
theorem run_succ {s t : State} (h : step s = .next t) (k : Nat) : core.run (k + 1) s = core.run k t :=
  core_run_succ core h k

/-- A run stays where a step does. -/
theorem run_of_step_self {s : State} (h : step s = .next s) (k : Nat) : core.run k s = .next s := by
  induction k with
  | zero => rfl
  | succ k ih => rw [run_succ h, ih]

/-- Settles O12: outside RUNNING a step answers the same state, so a run stays there. -/
theorem nothingStepsOutsideRunning : Obligations.NothingStepsOutsideRunning := by
  intro k s hs
  have hrun : s.status ≠ .running := by
    obtain (h | h) | h := hs <;> simp [h]
  exact run_of_step_self (step_of_not_running hrun) k

/-- R131: a JUMP to the address it was fetched from undoes the fetch. -/
theorem advance_setPc_self {s : State} {a : Word} (h : s.pc = a) : s.advance.setPc a = s := by
  subst h; rfl

/-- Settles O22: the step of such a JUMP answers the same state, so a run stays there. -/
theorem jumpToItselfRunsForever : Obligations.JumpToItselfRunsForever := by
  intro k s nnn hrun hf hpc
  have htarget : s.pc = zext16 nnn := BitVec.eq_of_toNat_eq (by rw [hpc, zext16_toNat])
  refine run_of_step_self ?_ k
  rw [step_of_decode_instr hrun hf (decode_jumpWord nnn), exec_jump, advance_setPc_self htarget]

/-- R60: a run of any number of steps ends in a state with the memory it began with. -/
theorem run_next (k : Nat) (s : State) : ∃ t : State, core.run k s = .next t ∧ t.mem = s.mem := by
  induction k generalizing s with
  | zero => exact ⟨s, rfl, rfl⟩
  | succ k ih =>
    obtain ⟨u, hu, hmem⟩ := step_next s
    obtain ⟨t, ht, hmem'⟩ := ih u
    exact ⟨t, by rw [run_succ hu, ht], hmem'.trans hmem⟩

/-- R52: the fetch depends on `pc` and memory alone. -/
theorem fetchWord_congr {s t : State} (hpc : t.pc = s.pc) (hmem : t.mem = s.mem) : fetchWord t = fetchWord s := by
  rw [fetchWord_eq, fetchWord_eq, hpc, hmem]

/-- Settles O38: the run keeps memory, and MemRead and the fetch read nothing else but `pc`. -/
theorem memoryDuringARunIsMemoryAtLaunch : Obligations.MemoryDuringARunIsMemoryAtLaunch := by
  intro k s
  obtain ⟨t, ht, hmem⟩ := run_next k s
  refine ⟨t, ht, fun a => ?_, fetchWord_congr rfl hmem⟩
  rw [memRead, memRead, hmem]

end Sys2Proof.Machine
end

section
/-! SUPPORT. Proofs over all sixteen instructions: the registers they read and write (spec/10_state.md section 2) and the call
stack (sections 5 and 8), with RETURN, SKIP-IF-NOT-EQUAL-IMM and SUB-REG. -/

namespace Sys2Proof.Machine

/-! ### RETURN (R130, R133) -/

/-- Settles O18: on an empty stack the fault keeps everything the statement names; else the pop and the write to `pc` do. -/
theorem returnPopsThePcOrUnderflows : Obligations.ReturnPopsThePcOrUnderflows := by
  refine ⟨decode_ret, fun s => ?_⟩
  by_cases h : s.sp.val = 0
  · exact ⟨_, exec_ret_of_empty h, fun hpos => absurd h hpos.ne', fun _ => ⟨rfl, rfl, rfl, rfl⟩, raiseFatalIn_slot _ _ s,
      fun r _ => raiseFatalIn_readV _ _ s r, raiseFatalIn_memRead _ _ s⟩
  · exact ⟨_, exec_ret_of_nonempty h, fun _ => ⟨rfl, top_eq s, rfl, rfl, rfl, rfl⟩, fun h0 => absurd h0 h, pop_slot s,
      fun r _ => pop_readV s r, pop_memRead s⟩

/-- Settles O21: the CALL pushed `pc` onto the slot at `sp`, which is the top of the stack it left. -/
theorem callThenReturnComesBack : Obligations.CallThenReturnComesBack := by
  intro nnn s u hfree
  obtain ⟨hsp, hslot⟩ := push_spec s s.pc hfree
  refine ⟨_, exec_call_of_not_full nnn hfree.ne, fun husp hustack => ?_⟩
  have hu : u.sp.val = s.sp.val + 1 := by rw [husp, setPc_sp, hsp]
  refine ⟨_, exec_ret_of_nonempty (by omega), ?_, ?_⟩
  · have htop : u.top = u.slot ⟨s.sp.val, hfree⟩ := top_eq u _ (by simp [hu])
    have hkept : u.slot ⟨s.sp.val, hfree⟩ = (s.push s.pc).slot ⟨s.sp.val, hfree⟩ := by
      rw [State.slot, State.slot, hustack, setPc_stack]
    rw [setPc_pc, htop, hkept, hslot, if_pos rfl]
  · apply Fin.ext
    simp [hu]

/-! ### The stack is CALL's and RETURN's alone (R40, R34) -/

/-- R40: a skip neither looks at the stack nor changes it. -/
theorem skipIf_withStack (c : Bool) (s : State) (st : Vector Word 16) (p : Fin 17) :
    StackKept s (s.skipIf c) ∧ { s with stack := st, sp := p }.skipIf c = { s.skipIf c with stack := st, sp := p } := by
  cases c <;> exact ⟨⟨rfl, fun _ => rfl⟩, rfl⟩

/-- Settles O39: a skip decides on registers, and the other instructions write registers, `pc` or the run state. -/
theorem stackIsSeenOnlyByCallAndReturn : Obligations.StackIsSeenOnlyByCallAndReturn := by
  intro i s st p hret hcall
  cases i with
  | ret => exact absurd rfl hret
  | call nnn => exact absurd rfl (hcall nnn)
  | skipEqImm | skipNeImm | skipEqReg =>
    exact ⟨_, rfl, (skipIf_withStack _ s st p).imp_right (congrArg Host.Outcome.next)⟩
  | halt | clear | jump => exact ⟨_, rfl, ⟨rfl, fun _ => rfl⟩, rfl⟩
  | loadImm | addImm | loadReg | orReg | andReg | xorReg | addReg | subReg => exact ⟨_, rfl, ⟨rfl, fun _ => rfl⟩, rfl⟩

/-- Settles O40: of all a meaning can do, only the push writes a slot. -/
theorem slotsAreWrittenByCallAlone : Obligations.SlotsAreWrittenByCallAlone := by
  intro i s t k h hne
  obtain ⟨u, hu, hcases⟩ := exec_cases i s
  obtain rfl := Host.Outcome.next.inj (hu.symm.trans h)
  obtain ⟨v', rfl, -⟩ | ⟨p, rfl, -⟩ | ⟨-, rfl⟩ | ⟨-, -, rfl⟩ | ⟨nnn, rfl, hfree, rfl⟩ | ⟨-, -, rfl⟩ | ⟨nnn, -, -, rfl⟩ := hcases
  case inr.inr.inr.inr.inl =>
    obtain ⟨-, hslot⟩ := push_spec s s.pc hfree
    rw [setPc_slot, hslot] at hne ⊢
    split_ifs at hne ⊢ with hk
    · exact ⟨⟨nnn, rfl⟩, hk, rfl⟩
    · exact absurd rfl hne
  all_goals exact absurd rfl hne

/-! ### SKIP-IF-NOT-EQUAL-IMM (R151) -/

/-- R151: SKIP-IF-NOT-EQUAL-IMM compares `V[x]` with the byte `kk`. -/
theorem exec_skipNeImm (x : Reg) (kk : Byte) (s : State) :
    exec (.skipNeImm x kk) s = .next (s.setPc (if s.readV x ≠ kk then s.pc + 2#16 else s.pc)) := by
  have h : s.skipIf (!aluEq (s.readV x) kk) = s.setPc (if s.readV x ≠ kk then s.pc + 2#16 else s.pc) := by
    simp [skipIf_eq, aluEq]
  exact congrArg Host.Outcome.next h

/-- Settles O24: the word from its fields, the frame of a write to `pc`, and the two conditions, one the negation of the
other. -/
theorem skipIfNotEqualImm : Obligations.SkipIfNotEqualImm := by
  intro x kk s
  refine ⟨decode_wordXKK (by decide) x kk, _, exec_skipNeImm x kk s, setPc_pc .., setPc_onlyPcMayChange s _, _,
    exec_skipEqImm x kk s, ?_⟩
  by_cases h : s.readV x = kk <;> simp [h]

/-! ### SUB-REG (R176) -/

/-- R176, R170: SUB-REG writes the comparison and then the difference, both of the operands as they were before either
write. -/
theorem exec_subReg (x y : Reg) (s : State) :
    exec (.subReg x y) s =
      .next ((s.writeV VF (greaterFlag (s.readV x) (s.readV y))).writeV x (aluSub (s.readV x) (s.readV y))) := rfl

/-- R178: the ALU's difference as a number. -/
theorem aluSub_toNat (a b : Byte) : ((aluSub a b).toNat : Int) = ((a.toNat : Int) - (b.toNat : Int)) % 256 := by
  have ha := a.isLt
  have hb := b.isLt
  rw [aluSub, BitVec.toNat_sub]
  omega

/-- R176: SUB-REG writes its destination and `VF`. -/
theorem subReg_regsKeptBut (s : State) (x : Reg) (flag d : Byte) :
    RegsKeptBut [x, VF] s ((s.writeV VF flag).writeV x d) := fun r hr =>
  (writeV_regsKeptBut s VF flag).trans (writeV_regsKeptBut _ x d) r fun h => hr (List.Perm.swap .. |>.mem_iff.mp h)

/-- Settles O33: the difference is the last write, and `VF` holds the comparison where that write goes elsewhere. -/
theorem subRegWritesFlagThenDifference : Obligations.SubRegWritesFlagThenDifference := by
  intro x y s
  refine ⟨decode_aluWord x y 0x5#4, _, exec_subReg x y s, ?_, fun hx => ?_, subReg_regsKeptBut s x _ _, ?_⟩
  · rw [readV_writeV_self, aluSub_toNat]
  · rw [readV_writeV, if_neg hx.symm]
    exact (congrArg BitVec.toNat (readV_writeV_self s VF _)).trans (greaterFlag_toNat ..)
  · exact (writeV_onlyRegsMayChange s VF _).trans (writeV_onlyRegsMayChange ..)

/-! ### The registers an instruction writes (R22) -/

/-- R22: an instruction other than ADD-REG and SUB-REG changes no register but its destination. -/
theorem exec_regsKeptBut_destReg {i : Instr} {s t : State} (hadd : ∀ x y, i ≠ .addReg x y) (hsub : ∀ x y, i ≠ .subReg x y)
    (h : exec i s = .next t) : RegsKeptBut (destReg i).toList s t := by
  cases hd : destReg i with
  | none => exact fun r _ => exec_readV_of_destReg_none hd h r
  | some x =>
    obtain ⟨b, hb⟩ := exec_eq_writeV_destReg hd hadd hsub s
    obtain rfl := Host.Outcome.next.inj (hb.symm.trans h)
    exact writeV_regsKeptBut s x b

/-- Settles O34: the destination alone, but for the two instructions that write `VF` too. -/
theorem onlyListedRegistersAreWritten : Obligations.OnlyListedRegistersAreWritten := by
  intro i s t h
  cases i with
  | addReg x y =>
    obtain rfl := Host.Outcome.next.inj h
    exact (writeV_regsKeptBut s x _).trans (writeV_regsKeptBut _ VF _)
  | subReg x y =>
    obtain rfl := Host.Outcome.next.inj h
    exact subReg_regsKeptBut s x _ _
  | _ => exact exec_regsKeptBut_destReg (by simp) (by simp) h

/-! ### The registers an instruction reads (R22) -/

/-- A second write to a register is the one that remains. -/
theorem writeV_writeV_self (s : State) (r : Reg) (b c : Byte) : (s.writeV r b).writeV r c = s.writeV r c := by
  simp [State.writeV]

/-- Writes to different registers may change places. -/
theorem writeV_comm (s : State) {r x : Reg} (h : r ≠ x) (b c : Byte) :
    (s.writeV r b).writeV x c = (s.writeV x c).writeV r b := by
  have hne : r.toNat ≠ x.toNat := fun e => h (BitVec.eq_of_toNat_eq e)
  simp [State.writeV, Vector.set_comm _ _ hne]

/-- R22: a byte written to `r` before a register write is lost where that write goes to `r`, and remains elsewhere. -/
theorem writeV_before_writeV (s : State) (r x : Reg) (b c : Byte) :
    (s.writeV r b).writeV x c = if r ∈ [x] then s.writeV x c else (s.writeV x c).writeV r b := by
  by_cases h : r = x
  · subst h; simp [writeV_writeV_self]
  · simp [h, writeV_comm s h]

/-- R22: a byte written to `r` before two register writes is lost where one of them goes to `r`, and remains elsewhere. -/
theorem writeV_before_writeV_writeV (s : State) (r x y : Reg) (b c d : Byte) :
    ((s.writeV r b).writeV x c).writeV y d =
      if r ∈ [x, y] then (s.writeV x c).writeV y d else ((s.writeV x c).writeV y d).writeV r b := by
  by_cases hx : r = x
  · subst hx; simp [writeV_writeV_self]
  · rw [writeV_comm s hx, writeV_before_writeV]
    simp [hx]

/-- A push neither looks at the registers nor changes them. -/
theorem push_writeV (s : State) (r : Reg) (b : Byte) (t : Word) : (s.writeV r b).push t = (s.push t).writeV r b := by
  by_cases h : s.sp.val < 16 <;> simp [State.push, State.writeV, h]

/-- R22: with another byte in `r` beforehand, the instruction ends in the same state but for that byte, and in the same state
where it writes `r`. -/
def Ignores (i : Instr) (s : State) (r : Reg) (b : Byte) : Prop :=
  ∃ t, exec i s = .next t ∧ exec i (s.writeV r b) = .next (if r ∈ regsWritten i then t else t.writeV r b)

/-- An instruction that writes no register and ends with the byte in `r` as it was ignores `r`. -/
theorem ignores_of_no_write {i : Instr} {s t : State} {r : Reg} {b : Byte} (hw : regsWritten i = [])
    (hs : exec i s = .next t) (hr : exec i (s.writeV r b) = .next (t.writeV r b)) : Ignores i s r b :=
  ⟨t, hs, by rw [hr, hw, if_neg List.not_mem_nil]⟩

/-- An instruction that makes one register write, of the same byte with and without the change to `r`, ignores `r`. -/
theorem ignores_of_writeV {i : Instr} {s : State} {r x : Reg} {b c : Byte} (hw : regsWritten i = [x])
    (hs : exec i s = .next (s.writeV x c)) (hr : exec i (s.writeV r b) = .next ((s.writeV r b).writeV x c)) :
    Ignores i s r b :=
  ⟨_, hs, by rw [hr, hw, writeV_before_writeV]⟩

/-- A byte written to a register outside a list is not read at a register of the list. -/
theorem readV_writeV_of_not_mem {rs : List Reg} {r : Reg} (hr : r ∉ rs) (s : State) (b : Byte) :
    ∀ x ∈ rs, (s.writeV r b).readV x = s.readV x := by
  intro x hx
  have hne : x ≠ r := fun e => hr (e ▸ hx)
  rw [readV_writeV, if_neg hne]

/-- A byte written to a register that is neither of two is not read at either. -/
theorem readV_writeV_of_not_mem_pair {x y r : Reg} (hr : r ∉ [x, y]) (s : State) (b : Byte) :
    (s.writeV r b).readV x = s.readV x ∧ (s.writeV r b).readV y = s.readV y :=
  ⟨readV_writeV_of_not_mem hr s b x (by simp), readV_writeV_of_not_mem hr s b y (by simp)⟩

/-- Settles O35: the operands read the same; what an instruction then does to the stack, `pc` and the run state looks at no
register, and its register writes leave or replace the byte in `r`. -/
theorem unreadRegistersReachNothing : Obligations.UnreadRegistersReachNothing := by
  intro i s r b hr
  change Ignores i s r b
  cases i with
  | halt | clear | jump => exact ignores_of_no_write rfl rfl rfl
  | ret =>
    by_cases h : s.sp.val = 0
    · exact ignores_of_no_write rfl (exec_ret_of_empty h) (exec_ret_of_empty (s := s.writeV r b) h)
    · exact ignores_of_no_write rfl (exec_ret_of_nonempty h) (exec_ret_of_nonempty (s := s.writeV r b) h)
  | call nnn =>
    by_cases h : s.sp.val = 16
    · exact ignores_of_no_write rfl (exec_call_of_full nnn h) (exec_call_of_full (s := s.writeV r b) nnn h)
    · refine ignores_of_no_write rfl (exec_call_of_not_full nnn h) ?_
      rw [exec_call_of_not_full (s := s.writeV r b) nnn h, push_writeV]
      rfl
  | skipEqImm x kk =>
    have hx := readV_writeV_of_not_mem hr s b _ (List.mem_singleton_self _)
    exact ignores_of_no_write rfl (exec_skipEqImm x kk s) (by rw [exec_skipEqImm, hx]; rfl)
  | skipNeImm x kk =>
    have hx := readV_writeV_of_not_mem hr s b _ (List.mem_singleton_self _)
    exact ignores_of_no_write rfl (exec_skipNeImm x kk s) (by rw [exec_skipNeImm, hx]; rfl)
  | skipEqReg x y =>
    obtain ⟨hx, hy⟩ := readV_writeV_of_not_mem_pair hr s b
    exact ignores_of_no_write rfl (exec_skipEqReg x y s) (by rw [exec_skipEqReg, hx, hy]; rfl)
  | loadImm x kk => exact ignores_of_writeV rfl (exec_loadImm x kk s) (exec_loadImm ..)
  | addImm x kk =>
    have hx := readV_writeV_of_not_mem hr s b _ (List.mem_singleton_self _)
    exact ignores_of_writeV rfl (exec_addImm x kk s) (by rw [exec_addImm, hx])
  | loadReg x y =>
    have hy := readV_writeV_of_not_mem hr s b _ (List.mem_singleton_self _)
    exact ignores_of_writeV rfl (exec_loadReg x y s) (by rw [exec_loadReg, hy])
  | orReg x y =>
    obtain ⟨hx, hy⟩ := readV_writeV_of_not_mem_pair hr s b
    exact ignores_of_writeV rfl (exec_orReg x y s) (by rw [exec_orReg, hx, hy])
  | andReg x y =>
    obtain ⟨hx, hy⟩ := readV_writeV_of_not_mem_pair hr s b
    exact ignores_of_writeV rfl (exec_andReg x y s) (by rw [exec_andReg, hx, hy])
  | xorReg x y =>
    obtain ⟨hx, hy⟩ := readV_writeV_of_not_mem_pair hr s b
    exact ignores_of_writeV rfl (exec_xorReg x y s) (by rw [exec_xorReg, hx, hy])
  | addReg x y =>
    obtain ⟨hx, hy⟩ := readV_writeV_of_not_mem_pair hr s b
    exact ⟨_, exec_addReg x y s, by rw [exec_addReg, hx, hy, writeV_before_writeV_writeV]; rfl⟩
  | subReg x y =>
    obtain ⟨hx, hy⟩ := readV_writeV_of_not_mem_pair hr s b
    have hmem : r ∈ [VF, x] ↔ r ∈ regsWritten (.subReg x y) := (List.Perm.swap ..).mem_iff
    refine ⟨_, exec_subReg x y s, ?_⟩
    rw [exec_subReg, hx, hy, writeV_before_writeV_writeV]
    exact congrArg Host.Outcome.next (if_congr hmem rfl rfl)

end Sys2Proof.Machine
end

section
/-! SUPPORT. Proofs over every step and every host move: the machine's invariant (spec/10_state.md sections 4 and 7) and the
host's loads and start (spec/40_engine.md section 4, spec/70_reset_and_hazards.md). -/

namespace Sys2Proof.Machine

/-! ### The invariant at reset and where the record is kept -/

/-- R20: a slot after reset. -/
@[simp] theorem reset_slot (k : Fin 16) : State.reset.slot k = 0x0000#16 := by simp [State.slot, State.reset]

/-- R20: a register after reset. -/
@[simp] theorem reset_readV (r : Reg) : State.reset.readV r = 0x00#8 := by simp [State.readV, State.reset]

/-- R20: a byte of memory after reset. -/
theorem memRead_reset {a : Nat} (h : a ≤ 0xFFF) : memRead a State.reset = some 0x00#8 :=
  memRead_of_lt _ (by unfold Config.memSize; omega)

/-- Settles O46: reset answers the reset state, and its contents read back. -/
theorem resetZeroesEverything : Obligations.ResetZeroesEverything := fun _ =>
  ⟨_, rfl, rfl, reset_readV, fun _ => memRead_reset, rfl, reset_slot, rfl, rfl, rfl, rfl, rfl⟩

/-- Settles O47: the fields at reset. -/
theorem resetMeetsTheMachineInvariant : Obligations.ResetMeetsTheMachineInvariant :=
  ⟨reset_mem_wf, by decide, by simp, nofun, fun _ => ⟨rfl, rfl, rfl⟩, fun _ => ⟨rfl, rfl⟩⟩

/-- Outside FAULT the invariant's clauses on the record pass from state to state with the record itself. -/
theorem inv_of_recordKept {s t : State} (hs : s.Inv) (hsf : s.status ≠ .fault) (htf : t.status ≠ .fault)
    (hrec : RecordKept s t) (hwf : t.mem.wf = true) (hpc : t.pc.toNat ≤ 0x1002) (hslot : ∀ k, (t.slot k).toNat ≤ 0x1000)
    (hidle : t.status = .idle → t.pc = 0x0000#16 ∧ t.sp = 0) : t.Inv := by
  obtain ⟨-, -, -, -, hzero, -⟩ := hs
  obtain ⟨hcause, hfaultPc, hfaultOpcode⟩ := hrec
  refine ⟨hwf, hpc, hslot, fun h => absurd h htf, fun _ => ?_, hidle⟩
  rw [hcause, hfaultPc, hfaultOpcode]
  exact hzero hsf

/-! ### Every step keeps the invariant -/

/-- R29: after a fetch in range, every meaning leaves `pc` at most at 0x1002 and every return address at most at 0x1000. -/
theorem exec_range {i : Instr} {s t : State} (h : exec i s = .next t) (hpc : s.pc.toNat ≤ 0x1000)
    (hslot : ∀ k, (s.slot k).toNat ≤ 0x1000) : t.pc.toNat ≤ 0x1002 ∧ ∀ k, (t.slot k).toNat ≤ 0x1000 := by
  have hpc' : s.pc.toNat ≤ 0x1002 := by omega
  have hzext (nnn : Addr) : (zext16 nnn).toNat ≤ 0x1002 := by rw [zext16_toNat]; omega
  obtain ⟨u, hu, hcases⟩ := exec_cases i s
  obtain rfl := Host.Outcome.next.inj (hu.symm.trans h)
  obtain ⟨v', rfl, -⟩ | ⟨p, rfl, hp, -⟩ | ⟨-, rfl⟩ | ⟨-, -, rfl⟩ | ⟨nnn, -, hfree, rfl⟩ | ⟨-, -, rfl⟩ | ⟨nnn, -, -, rfl⟩ := hcases
  · exact ⟨hpc', hslot⟩
  · refine ⟨?_, hslot⟩
    obtain rfl | rfl | ⟨nnn, rfl⟩ := hp
    · exact hpc'
    · rw [setPc_pc]
      bv_omega
    · exact hzext nnn
  · exact ⟨hpc', hslot⟩
  · exact ⟨(hslot _).trans (by omega), hslot⟩
  · refine ⟨hzext nnn, fun k => ?_⟩
    obtain ⟨-, hpush⟩ := push_spec s s.pc hfree
    rw [setPc_slot, hpush]
    split
    · exact hpc
    · exact hslot k
  · exact ⟨hpc', hslot⟩
  · exact ⟨hpc', hslot⟩

/-- R28, R53: after a fetch in range, `pc` is at most 0x1000. -/
theorem advance_pc_le {s : State} {w : Word} (hf : fetchWord s = some w) : s.advance.pc.toNat ≤ 0x1000 := by
  have := pc_le_of_fetch hf
  rw [advance_pc]
  bv_omega

/-- R29, R31: every step keeps `pc` and the return addresses in range. -/
theorem step_range {s t : State} (h : step s = .next t) (hpc : s.pc.toNat ≤ 0x1002)
    (hslot : ∀ k, (s.slot k).toNat ≤ 0x1000) : t.pc.toNat ≤ 0x1002 ∧ ∀ k, (t.slot k).toNat ≤ 0x1000 := by
  obtain ⟨-, hstep⟩ | ⟨-, -, hstep⟩ | ⟨w, -, hf, -, hstep⟩ | ⟨w, i, -, hf, -, hstep⟩ := step_cases s
  · obtain rfl := Host.Outcome.next.inj (hstep.symm.trans h)
    exact ⟨hpc, hslot⟩
  · obtain rfl := Host.Outcome.next.inj (hstep.symm.trans h)
    exact ⟨hpc, hslot⟩
  · obtain rfl := Host.Outcome.next.inj (hstep.symm.trans h)
    exact ⟨(advance_pc_le hf).trans (by omega), hslot⟩
  · exact exec_range (hstep.symm.trans h) (advance_pc_le hf) hslot

/-- R205, R203: the record a step into FAULT writes has a cause and agrees with the state. -/
theorem step_recordAgrees {s t : State} (hrun : s.status = .running) (h : step s = .next t) (hfault : t.status = .fault) :
    t.cause ≠ .none ∧ t.RecordAgrees := by
  obtain ⟨hf, rfl⟩ | ⟨w, c, hf, hc, hc', rfl⟩ := step_fault hrun h hfault
  · exact ⟨by simp, ⟨rfl, rfl, (fetchWord_none_iff s).mp hf⟩⟩
  · refine ⟨hc, ?_⟩
    rw [State.RecordAgrees, raiseFatal_cause, if_neg hc']
    exact ⟨rfl, (fetchWord_congr rfl rfl).trans hf⟩

/-- Settles O48: the range by `step_range`, memory kept, and the record written on entering FAULT or kept elsewhere. -/
theorem everyStepKeepsTheMachineInvariant : Obligations.EveryStepKeepsTheMachineInvariant := by
  intro s t hinv h
  by_cases hrun : s.status = .running
  · obtain ⟨hwf, hpc, hslot, -⟩ := id hinv
    obtain ⟨hpc', hslot'⟩ := step_range h hpc hslot
    have hwf' : t.mem.wf = true := by
      obtain ⟨u, hu, hmem⟩ := step_next s
      obtain rfl := Host.Outcome.next.inj (hu.symm.trans h)
      rw [hmem, hwf]
    have hidle : t.status ≠ .idle := by
      obtain e | e | ⟨e, -⟩ := step_status hrun h <;> simp [e]
    by_cases hfault : t.status = .fault
    · exact ⟨hwf', hpc', hslot', fun _ => step_recordAgrees hrun h hfault, fun hne => absurd hfault hne,
        fun e => absurd e hidle⟩
    · exact inv_of_recordKept hinv (by simp [hrun]) hfault (step_recordKept_of_not_fault hrun h hfault) hwf' hpc' hslot'
        fun e => absurd e hidle
  · obtain rfl := Host.Outcome.next.inj ((step_of_not_running hrun).symm.trans h)
    exact hinv

/-! ### Every host move keeps the invariant (R110, R112) -/

/-- R110: in IDLE the host loads a byte. -/
theorem hostMove_loadByte {s : State} (h : s.status = .idle) (a : Addr) (b : Byte) :
    hostMove (.loadByte a b) s = some (loadByte a b s) := if_pos h

/-- R110: in IDLE the host loads a register. -/
theorem hostMove_loadReg {s : State} (h : s.status = .idle) (r : Reg) (b : Byte) :
    hostMove (.loadReg r b) s = some (s.writeV r b) := if_pos h

/-- R100: in IDLE the host starts a run. -/
theorem hostMove_start {s : State} (h : s.status = .idle) : hostMove .start s = some (s.setStatus .running) := if_pos h

/-- R110, R112: a move other than reset is made in IDLE, and touches neither `pc` nor the stack nor the record. -/
theorem hostMove_kept {m : HostMove} {s t : State} (hm : m ≠ .reset) (h : hostMove m s = some t) :
    s.status = .idle ∧ t.status ≠ .fault ∧ t.pc = s.pc ∧ StackKept s t ∧ RecordKept s t ∧
      (s.mem.wf = true → t.mem.wf = true) := by
  have hidle : s.status = .idle := by
    by_contra hne
    cases m <;> simp_all [hostMove]
  cases m with
  | reset => exact absurd rfl hm
  | loadByte a b =>
    obtain rfl := Option.some.inj ((hostMove_loadByte hidle a b).symm.trans h)
    exact ⟨hidle, by simp [hidle], rfl, ⟨rfl, loadByte_slot a b s⟩, ⟨rfl, rfl, rfl⟩, fun hwf => loadByte_mem_wf hwf a b⟩
  | loadReg r b =>
    obtain rfl := Option.some.inj ((hostMove_loadReg hidle r b).symm.trans h)
    exact ⟨hidle, by simp [hidle], rfl, ⟨rfl, writeV_slot s r b⟩, ⟨rfl, rfl, rfl⟩, id⟩
  | start =>
    obtain rfl := Option.some.inj ((hostMove_start hidle).symm.trans h)
    exact ⟨hidle, by simp, rfl, ⟨rfl, setStatus_slot s _⟩, ⟨rfl, rfl, rfl⟩, id⟩

/-- Settles O49: reset answers the reset state, and the other moves keep what the invariant speaks of. -/
theorem everyHostMoveKeepsTheMachineInvariant : Obligations.EveryHostMoveKeepsTheMachineInvariant := by
  intro m s t hinv h
  by_cases hm : m = .reset
  · subst hm
    obtain rfl := Option.some.inj h
    exact resetMeetsTheMachineInvariant
  · obtain ⟨hidle, hfault, hpc, ⟨hsp, hslot⟩, hrec, hmem⟩ := hostMove_kept hm h
    obtain ⟨hwf, hpcs, hslots, -, -, hstart⟩ := id hinv
    refine inv_of_recordKept hinv (by simp [hidle]) hfault hrec (hmem hwf) (by rwa [hpc]) (fun k => ?_) fun _ => ?_
    · rw [hslot]
      exact hslots k
    · rw [hpc, hsp]
      exact hstart hidle

/-! ### Reachable states -/

/-- R100, R112: every reachable state meets the invariant. -/
theorem Reachable.inv {s : State} (h : Reachable s) : s.Inv := by
  induction h with
  | reset => exact resetMeetsTheMachineInvariant
  | step s t _ hstep ih => exact everyStepKeepsTheMachineInvariant s t ih hstep
  | host m s t _ hmove ih => exact everyHostMoveKeepsTheMachineInvariant m s t ih hmove

/-- Settles O50: the invariant of every reachable state, read off. -/
theorem reachableStatesKeepPcInRange : Obligations.ReachableStatesKeepPcInRange := by
  intro s hs
  obtain ⟨hwf, hpc, hslot, hfault, hzero, -⟩ := hs.inv
  refine ⟨hpc, hslot, ⟨fun hc => ?_, fun hf => (hfault hf).1⟩, hwf⟩
  by_contra hf
  obtain ⟨hcause, -⟩ := hzero hf
  exact hc hcause

/-! ### The host's loads and start (R110, R112) -/

/-- Settles O51: no move but reset outside IDLE, and in IDLE the frame of each of the three. -/
theorem hostLoadsAndStartsInIdleAlone : Obligations.HostLoadsAndStartsInIdleAlone := by
  intro s hwf
  refine ⟨fun hbusy m hm => ?_, fun hidle => ⟨fun a b => ?_, fun r b => ?_, ?_⟩⟩
  · rw [Option.eq_none_iff_forall_ne_some]
    intro t ht
    obtain ⟨hidle, -⟩ := hostMove_kept hm ht
    exact hbusy hidle
  · refine ⟨_, hostMove_loadByte hidle a b, ?_, fun c hc => ?_, fun r _ => loadByte_readV a b s r, rfl,
      ⟨rfl, loadByte_slot a b s⟩, hidle, rfl, rfl, rfl⟩
    · rw [memRead_loadByte hwf, if_pos rfl]
    · rw [memRead_loadByte hwf, if_neg hc]
  · exact ⟨_, hostMove_loadReg hidle r b, readV_writeV_self s r b, writeV_regsKeptBut s r b, writeV_onlyRegsMayChange s r b⟩
  · exact ⟨_, hostMove_start hidle, rfl, fun r _ => setStatus_readV s _ r, rfl, ⟨rfl, setStatus_slot s _⟩, ⟨rfl, rfl, rfl⟩,
      setStatus_memRead s _⟩

/-! ### Loads, then start (R236) -/

/-- Host moves in two parts. -/
theorem hostMoves_append (ms ns : List HostMove) (s : State) :
    hostMoves (ms ++ ns) s = (hostMoves ms s).bind (hostMoves ns) := by
  induction ms generalizing s with
  | nil => rfl
  | cons m ms ih => simp only [List.cons_append, hostMoves, Option.bind_assoc, ih]

/-- R110: a load changes registers and memory alone. -/
theorem hostMove_load {m : HostMove} (hreset : m ≠ .reset) (hstart : m ≠ .start) {s : State} (hidle : s.status = .idle) :
    ∃ v mem, hostMove m s = some { s with v := v, mem := mem } := by
  cases m with
  | reset => exact absurd rfl hreset
  | loadByte a b => exact ⟨_, _, hostMove_loadByte hidle a b⟩
  | loadReg r b => exact ⟨_, _, hostMove_loadReg hidle r b⟩
  | start => exact absurd rfl hstart

/-- R110: any number of loads changes registers and memory alone. -/
theorem hostMoves_loads {ms : List HostMove} (hms : ∀ m ∈ ms, m ≠ .reset ∧ m ≠ .start) {s : State} (hidle : s.status = .idle) :
    ∃ v mem, hostMoves ms s = some { s with v := v, mem := mem } := by
  induction ms generalizing s with
  | nil => exact ⟨s.v, s.mem, rfl⟩
  | cons m ms ih =>
    obtain ⟨⟨hreset, hstart⟩, hrest⟩ := List.forall_mem_cons.mp hms
    obtain ⟨v, mem, hmove⟩ := hostMove_load hreset hstart hidle
    obtain ⟨v', mem', hmoves⟩ := ih hrest (s := { s with v := v, mem := mem }) hidle
    exact ⟨v', mem', by rw [hostMoves, hmove, Option.bind_some, hmoves]⟩

/-- R236: after reset and loads that end in `s`, start gives a launch state with the registers and memory of `s`. -/
theorem launch_of_loads {ms : List HostMove} (hms : ∀ m ∈ ms, m ≠ .reset ∧ m ≠ .start) {s : State}
    (h : hostMoves ms State.reset = some s) :
    hostMoves (ms ++ [.start]) State.reset = some (s.setStatus .running) ∧ (s.setStatus .running).Launch := by
  obtain ⟨v, mem, hloads⟩ := hostMoves_loads hms (s := State.reset) rfl
  obtain rfl := Option.some.inj (hloads.symm.trans h)
  refine ⟨?_, rfl, rfl, rfl, reset_slot, rfl, rfl, rfl⟩
  rw [hostMoves_append, h]
  rfl

/-- Settles O52: the loads exist in IDLE, and `launch_of_loads`. -/
theorem loadsThenStartGiveALaunchState : Obligations.LoadsThenStartGiveALaunchState := by
  intro ms hms
  obtain ⟨v, mem, hloads⟩ := hostMoves_loads hms (s := State.reset) rfl
  exact ⟨_, launch_of_loads hms hloads⟩

/-! ### Any contents can be loaded -/

/-- Every value of `n` bits. -/
def allBitVecs (n : Nat) : List (BitVec n) := (List.finRange (2 ^ n)).map BitVec.ofFin

theorem mem_allBitVecs {n : Nat} (x : BitVec n) : x ∈ allBitVecs n :=
  List.mem_map.mpr ⟨x.toFin, List.mem_finRange _, rfl⟩

/-- R110: loads of the registers of a list. -/
def loadRegs (rv : Reg → Byte) (rs : List Reg) : List HostMove := rs.map fun r => .loadReg r (rv r)

/-- R110: loads of the bytes at the addresses of a list. -/
def loadBytes (mv : Addr → Byte) (addrs : List Addr) : List HostMove := addrs.map fun a => .loadByte a (mv a)

/-- R110: after the loads of a list of registers, those hold the loaded bytes and the rest is as it was. -/
theorem hostMoves_loadRegs (rv : Reg → Byte) (rs : List Reg) {s : State} (hidle : s.status = .idle) :
    ∃ t, hostMoves (loadRegs rv rs) s = some t ∧ t.status = .idle ∧ t.mem = s.mem ∧
      ∀ r, t.readV r = if r ∈ rs then rv r else s.readV r := by
  induction rs generalizing s with
  | nil => exact ⟨s, rfl, hidle, rfl, by simp⟩
  | cons x rs ih =>
    obtain ⟨t, ht, htidle, hmem, hread⟩ := ih (s := s.writeV x (rv x)) hidle
    refine ⟨t, ?_, htidle, hmem, fun r => ?_⟩
    · rw [loadRegs, List.map_cons, hostMoves, hostMove_loadReg hidle]
      exact ht
    · rw [hread, readV_writeV]
      by_cases hx : r = x <;> simp [hx]

/-- R110: after the loads of the bytes at a list of addresses, those read the loaded bytes and the rest is as it was. -/
theorem hostMoves_loadBytes (mv : Addr → Byte) (addrs : List Addr) {s : State} (hidle : s.status = .idle)
    (hwf : s.mem.wf = true) :
    ∃ t, hostMoves (loadBytes mv addrs) s = some t ∧ (∀ r, t.readV r = s.readV r) ∧
      ∀ a : Addr, memRead a.toNat t = if a ∈ addrs then some (mv a) else memRead a.toNat s := by
  induction addrs generalizing s with
  | nil => exact ⟨s, rfl, fun _ => rfl, by simp⟩
  | cons c addrs ih =>
    obtain ⟨t, ht, hregs, hread⟩ := ih (s := loadByte c (mv c) s) hidle (loadByte_mem_wf hwf c _)
    refine ⟨t, ?_, hregs, fun a => ?_⟩
    · rw [loadBytes, List.map_cons, hostMoves, hostMove_loadByte hidle]
      exact ht
    · simp only [hread, memRead_loadByte hwf, BitVec.toNat_inj]
      by_cases hc : a = c <;> simp [hc]

/-- Settles O53: load every register, then every byte, then start. -/
theorem everyLaunchContentsCanBeLoaded : Obligations.EveryLaunchContentsCanBeLoaded := by
  intro rv mv
  obtain ⟨s, hs, hidle, hmem, hregs⟩ := hostMoves_loadRegs rv (allBitVecs 4) (s := State.reset) rfl
  obtain ⟨t, ht, hkept, hbytes⟩ := hostMoves_loadBytes mv (allBitVecs 12) hidle (by rw [hmem]; exact reset_mem_wf)
  have hloads : hostMoves (loadRegs rv (allBitVecs 4) ++ loadBytes mv (allBitVecs 12)) State.reset = some t := by
    rw [hostMoves_append, hs, Option.bind_some, ht]
  have hms : ∀ m ∈ loadRegs rv (allBitVecs 4) ++ loadBytes mv (allBitVecs 12), m ≠ .reset ∧ m ≠ .start := by
    simp only [loadRegs, loadBytes, List.mem_append, List.mem_map]
    rintro m (⟨r, -, rfl⟩ | ⟨a, -, rfl⟩) <;> simp
  obtain ⟨hmoves, hlaunch⟩ := launch_of_loads hms hloads
  refine ⟨_, _, hms, hmoves, fun r => ?_, fun a => ?_, hlaunch⟩
  · rw [setStatus_readV, hkept, hregs, if_pos (mem_allBitVecs r)]
  · rw [setStatus_memRead, hbytes, if_pos (mem_allBitVecs a)]

end Sys2Proof.Machine
end

section
/-! SUPPORT. Proofs of the ports (spec/40_engine.md R109, R111), the conservative variant (spec/92_eei_decisions.md D4, D5) and
the placing of an instruction for the next fetch. -/

namespace Sys2Proof.Machine

/-! ### The ports (R109, R111) -/

/-- R36: the code of the run state tells it. -/
theorem Status.code_inj {a b : Status} : a.code = b.code ↔ a = b := by
  cases a <;> cases b <;> decide

/-- R37: the code of `cause` tells it. -/
theorem Cause.code_inj {a b : Cause} : a.code = b.code ↔ a = b := by
  cases a <;> cases b <;> decide

/-- R37: the values 5 to 7 are never written. -/
theorem Cause.code_le (c : Cause) : c.code.toNat ≤ 4 := by cases c <;> decide

/-- R53: a fetch finds a word exactly where both bytes exist. -/
theorem fetchWord_isSome_iff (s : State) : (fetchWord s).isSome = true ↔ s.pc.toNat ≤ 0xFFE := by
  rw [Option.isSome_iff_ne_none, ne_eq, fetchWord_none_iff, not_lt]

/-- R109: the fetch port asks for `pc` alone, where the fetch of a running machine is in range. -/
theorem fetchRequest_eq_some_iff (s : State) (a : Word) :
    fetchRequest s = some a ↔ s.status = .running ∧ a = s.pc ∧ (fetchWord s).isSome = true := by
  rw [fetchWord_isSome_iff, fetchRequest, Option.ite_none_right_eq_some, Option.some.injEq, Config.lastFetch]
  constructor
  · rintro ⟨⟨hrun, hpc⟩, rfl⟩
    exact ⟨hrun, rfl, hpc⟩
  · rintro ⟨hrun, rfl, hpc⟩
    exact ⟨⟨hrun, hpc⟩, rfl⟩

/-- Settles O54: the codes tell the run state and the cause, and the fetch port is `fetchRequest_eq_some_iff`. -/
theorem observationAndFetchPorts : Obligations.ObservationAndFetchPorts := fun s =>
  ⟨fun _ => rfl, Status.code_inj (b := .idle), Status.code_inj (b := .running), Status.code_inj (b := .halted),
    Status.code_inj (b := .fault), Cause.code_inj (b := .none), Cause.code_inj (b := .stackUnderflow),
    Cause.code_inj (b := .stackOverflow), Cause.code_inj (b := .unsupportedOpcode), Cause.code_inj (b := .fetchOutOfRange),
    Cause.code_le _, rfl, rfl, fetchRequest_eq_some_iff s⟩

/-! ### The conservative variant (D4, D5) -/

/-- D4: where the variant may stop on a fetch. -/
theorem fetchesOdd_iff (s : State) : fetchesOdd s = true ↔ s.pc.toNat ≤ 0xFFE ∧ s.pc.toNat % 2 = 1 := by
  rw [fetchesOdd, Bool.and_eq_true, fetchWord_isSome_iff, beq_iff_eq]

/-- D5: the instruction is an ADD-REG or SUB-REG that names 0xF. -/
def NamesVf (i : Instr) : Prop := ∃ x y, (x = 0xF#4 ∨ y = 0xF#4) ∧ (i = .addReg x y ∨ i = .subReg x y)

theorem usesVfOperand_iff (i : Instr) : usesVfOperand i = true ↔ NamesVf i := by
  cases i with
  | addReg x y | subReg x y =>
    simp only [usesVfOperand, Bool.or_eq_true, beq_iff_eq]
    constructor
    · exact fun h => ⟨x, y, h, by simp⟩
    · rintro ⟨x', y', h, heq⟩
      obtain ⟨rfl, rfl⟩ : x = x' ∧ y = y' := by simpa using heq
      exact h
  | _ => simp [usesVfOperand, NamesVf]

/-- D5: where the variant may stop on the operands. -/
theorem runsVfOperand_iff (s : State) :
    runsVfOperand s = true ↔ ∃ i, fetched s = some (.instr i) ∧ NamesVf i := by
  unfold runsVfOperand fetched
  cases fetchWord s with
  | none => simp
  | some w => cases h : decode w <;> simp [h, usesVfOperand_iff]

/-- D4: the variant stops on an odd fetch where the parameter says so. -/
theorem stepWith_of_odd {p : Config.Params} {s : State} (hrun : s.status = .running) (hp : p.oddFetch = .fault)
    (hodd : fetchesOdd s = true) : stepWith p s = .fault .oddFetch := if_pos ⟨hrun, hp, hodd⟩

/-- D5: the variant stops on the operands where the parameter says so and no odd fetch stops before. -/
theorem stepWith_of_vf {p : Config.Params} {s : State} (hrun : s.status = .running) (hp : p.vfOperand = .fault)
    (hvf : runsVfOperand s = true) (hodd : ¬ (p.oddFetch = .fault ∧ fetchesOdd s = true)) :
    stepWith p s = .fault .vfOperand := by
  rw [stepWith, if_neg fun h => hodd h.2, if_pos ⟨hrun, hp, hvf⟩]

/-- Settles O55: by the two tests of `stepWith`. -/
theorem conservativeVariantOnlyStopsMore : Obligations.ConservativeVariantOnlyStopsMore := by
  intro p s
  refine ⟨by simp [stepWith, Config.standard], ?_, fun hp hrun hodd hpc => ?_, fun w x y hp hrun hno hf hd hxy => ?_⟩
  · by_cases hodd : s.status = .running ∧ p.oddFetch = .fault ∧ fetchesOdd s = true
    · obtain ⟨hrun, hp, hfetch⟩ := hodd
      obtain ⟨-, hpc⟩ := (fetchesOdd_iff s).mp hfetch
      exact .inr (.inl ⟨stepWith_of_odd hrun hp hfetch, hp, hrun, hpc⟩)
    · by_cases hvf : s.status = .running ∧ p.vfOperand = .fault ∧ runsVfOperand s = true
      · obtain ⟨hrun, hp, hruns⟩ := hvf
        obtain ⟨i, hi, x, y, hxy, hixy⟩ := (runsVfOperand_iff s).mp hruns
        obtain ⟨w, hw, hd⟩ := (fetched_eq_some_iff s _).mp hi
        refine .inr (.inr ⟨stepWith_of_vf hrun hp hruns fun h => hodd ⟨hrun, h⟩, hp, hrun, w, x, y, hw, hxy, ?_⟩)
        rw [hd, Decoded.instr.injEq, Decoded.instr.injEq]
        exact hixy
      · exact .inl (by rw [stepWith, if_neg hodd, if_neg hvf])
  · exact stepWith_of_odd hrun hp ((fetchesOdd_iff s).mpr ⟨hpc, hodd⟩)
  · have hvf : runsVfOperand s = true := by
      rw [runsVfOperand_iff]
      obtain hd | hd := hd
      · exact ⟨_, (fetched_eq_some_iff s _).mpr ⟨w, hf, hd⟩, x, y, hxy, .inl rfl⟩
      · exact ⟨_, (fetched_eq_some_iff s _).mpr ⟨w, hf, hd⟩, x, y, hxy, .inr rfl⟩
    refine stepWith_of_vf hrun hp hvf fun ⟨hpodd, hfetch⟩ => ?_
    obtain ⟨-, hpc⟩ := (fetchesOdd_iff s).mp hfetch
    exact hno ⟨hpodd, hpc⟩

/-! ### The placed instruction (log 2, log 17) -/

/-- A whole word, numbered as the table numbers it, has the word's two bytes, high byte first. -/
theorem bytesOfTableWord_toNat (w : Word) : bytesOfTableWord 16 w.toNat = [highByte w, lowByte w] := by
  have h : BitVec.ofNat 16 (w.toNat % 2 ^ 16) = w := by
    rw [Nat.mod_eq_of_lt w.isLt, BitVec.ofNat_toNat, BitVec.setWidth_eq]
  rw [bytesOfTableWord, h]

/-- Log 17: an instruction is placed where both of its bytes exist. -/
theorem fetchablePc_le (s : State) : (fetchablePc s).toNat ≤ 0xFFE := by
  unfold fetchablePc Config.lastFetch
  split
  · decide
  · omega

/-- A word placed in a canonical memory is the word the next step fetches. -/
theorem fetchWord_withFetchWord {s : State} (hwf : s.mem.wf = true) (w : Word) :
    fetchWord (s.withFetchWord 16 w.toNat) = some w := by
  have hpc := fetchablePc_le s
  have h0 : (fetchablePc s).toNat < Config.memSize := by unfold Config.memSize; omega
  have h1 : (fetchablePc s).toNat + 1 < Config.memSize := by unfold Config.memSize; omega
  have hmem : (s.withFetchWord 16 w.toNat).mem =
      (s.mem.write (fetchablePc s).toNat (highByte w)).write ((fetchablePc s).toNat + 1) (lowByte w) := by
    rw [State.withFetchWord, placeTableWord, bytesOfTableWord_toNat]
    rfl
  have hread (c : Nat) : (s.withFetchWord 16 w.toNat).mem.read c = if c = (fetchablePc s).toNat + 1 then lowByte w
      else if c = (fetchablePc s).toNat then highByte w else s.mem.read c := by
    rw [hmem, read_write (wf_write hwf h0 _), read_write hwf]
  have hpc' : (s.withFetchWord 16 w.toNat).pc = fetchablePc s := rfl
  rw [fetchWord_of_memRead (memRead_of_lt _ (by rwa [hpc'])) (memRead_of_lt _ (by rwa [hpc'])), hread, hread, hpc']
  simp

/-- Settles O56: the placed word is fetched, decodes to its instruction, and placing it changes no register, slot or record. -/
theorem placedInstructionIsTheOneThatRuns : Obligations.PlacedInstructionIsTheOneThatRuns := by
  intro s i hwf
  have hf := fetchWord_withFetchWord hwf (encode i)
  exact ⟨_, rfl, rfl, hf, step_of_decode_instr rfl hf (decode_encode i), fun _ _ => rfl, ⟨rfl, fun _ => rfl⟩, rfl, rfl, rfl⟩

end Sys2Proof.Machine
end
